-- ==== Sys2Proof/Word.lean ====
section
/-! DEFINITION. The plain types the rest of the model is written in: the command word, bytes, 7-bit
addresses, line levels and the two lines (spec/00_scope.md R4 to R6). -/

namespace Sys2Proof

/-- The 32-bit command word (spec/30_encoding.md R57). -/
abbrev CmdWord := BitVec 32

/-- One transferred byte, `BYTE_W = 8` (spec/00_scope.md R4); bit 7 is the most significant (R5). -/
abbrev Byte := BitVec 8

/-- A peripheral address, `ADDR_W = 7` (spec/00_scope.md R4). -/
abbrev Addr := BitVec 7

/-- A line level: `false` = 0 = logical low, `true` = 1 = logical high (spec/00_scope.md R6). -/
abbrev Level := Bool

/-- The two lines: data and clock (spec/00_scope.md R6, section 7). -/
inductive Line where
  | sda
  | scl
  deriving DecidableEq, Repr

/-- The line that is not `l`. -/
def Line.other : Line → Line
  | .sda => .scl
  | .scl => .sda

end Sys2Proof
end

