-- ==== Sys2Proof/Config.lean ====
section
/-! DEFINITION. What an implementation fixes (the parameters of spec/00_scope.md R4) and the free
values: constants without a body, so that no proof can learn them. Log entries 5 to 10, 17 and 18. -/

namespace Sys2Proof

/-- `OUT_LATCH_ON_CONFIG` (spec/00_scope.md R4, spec/40_line_primitives.md R70): the level a pin drives
between "configure as output" and "assert logical low". -/
inductive OutLatch where
  | low
  | high
  | any
  deriving DecidableEq, Repr

/-- The open parameters of one engine (spec/00_scope.md R4). They are held in the state and no operation
writes them (log 9), so that a claim about every state holds for every value of them. -/
structure Params where
  stretchMaxPolls : Nat
  sdaPin : Nat
  sclPin : Nat
  outLatch : OutLatch
  rfRecordsAddr : Bool
  deriving DecidableEq, Repr

/-- How far `STRETCH_MAX_POLLS` exceeds its least value 1 (spec/00_scope.md R4, decision D9). -/
opaque Config.extraPolls : Nat
/-- The smaller of the two pin identifiers (decision D4). -/
opaque Config.lowerPin : Nat
/-- How far the larger pin identifier exceeds the smaller one plus 1 (decision D4). -/
opaque Config.pinGap : Nat
/-- Which of the two pins has the smaller identifier (decision D4). -/
opaque Config.sdaIsLower : Bool

/-- `STRETCH_MAX_POLLS` of the reset state: any natural number from 1 on. -/
def Config.stretchMaxPolls : Nat := Config.extraPolls + 1

/-- The larger of the two pin identifiers: any number above the smaller one. -/
def Config.upperPin : Nat := Config.lowerPin + Config.pinGap + 1

/-- `SDA_PIN` and `SCL_PIN` of the reset state: any two distinct identifiers. -/
def Config.sdaPin : Nat := if Config.sdaIsLower then Config.lowerPin else Config.upperPin
def Config.sclPin : Nat := if Config.sdaIsLower then Config.upperPin else Config.lowerPin

/-- The parameters of the reset state: open ones free, `OUT_LATCH_ON_CONFIG` at its default `any`,
`RF_RECORDS_ADDR` at the value `false` the spec takes (spec/00_scope.md R4, spec/92_eei_decisions.md). -/
def Config.params : Params where
  stretchMaxPolls := Config.stretchMaxPolls
  sdaPin := Config.sdaPin
  sclPin := Config.sclPin
  outLatch := .any
  rfRecordsAddr := false

/-! Every free value below takes the pin it is about, or both pins of the engine, which are the engine's
identity (spec/30_encoding.md R65). Nothing makes the values of two pins, or of two engines, agree (log 17). -/

/-- Unspecified reset value of `ADDR`, by the data pin, the clock pin and the number of the reset
(spec/10_state.md R25; log 6). -/
opaque Config.resetAddr : Nat → Nat → Nat → Addr
/-- Unspecified reset value of `TXBUF[i]`, by the data pin, the clock pin, the number of the reset and `i`
(R25; log 6). -/
opaque Config.resetTxByte : Nat → Nat → Nat → Nat → Byte
/-- Unspecified reset value of `RXBUF[i]`, by the data pin, the clock pin, the number of the reset and `i`
(R25; log 6). -/
opaque Config.resetRxByte : Nat → Nat → Nat → Nat → Byte
/-- Unspecified reset value of a pin's output latch, by the pin and the number of the reset
(spec/10_state.md R24 (1); log 7). -/
opaque Config.resetLatch : Nat → Nat → Level

/-- The level the environment leaves a released line at, by the pin, at the n-th answer it was not told
(spec/20_memory.md R38; log 5). -/
opaque Config.freeFloat : Nat → Nat → Level
/-- The level a pin's output latch drives in the transient of `DriveLow` under `any`, by the pin and the
number of the draw (spec/40_line_primitives.md R70: drawn anew at each call; log 7). -/
opaque Config.freeLatch : Nat → Nat → Level
/-- A wire level spec/20_memory.md R37 calls unspecified, by the pin, the moment it is looked at and whether
the environment pulls the line low (log 8). -/
opaque Config.freeLevel : Nat → Nat → Bool → Level
/-- Whether a `WRITE_BYTE` injected by a harness counts as an address byte, by the data pin, the clock pin and
the number of the draw (log 10). -/
opaque Config.freeByteRole : Nat → Nat → Nat → Bool

end Sys2Proof
end

