-- ==== Sys2Proof/Syntax.lean ====
section
/-! DEFINITION. The operations: one constructor for each row of spec/opcode_table.json
(spec/30_encoding.md R60), with the operands at the widths of R59. -/

namespace Sys2Proof

/-- The 20 operations. The first seven are the host's commands (class `API`), the others the
micro-operations (class `UOP`), spec/30_encoding.md R58. -/
inductive Instr where
  /-- `BEGIN` (spec/42_transaction_api.md R100). -/
  | beginBus
  /-- `BEGIN_TX a` (R101); `a` is `A[6:0]`, `A[7]` is discarded by decoding (R59). -/
  | beginTx (a : Addr)
  /-- `WRITE b` (R102). -/
  | write (b : Byte)
  /-- `END_TX` (R103). -/
  | endTx
  /-- `REQUEST_FROM a, count` (R104). -/
  | requestFrom (a : Addr) (count : Byte)
  /-- `READ` (R105). -/
  | read
  /-- `AVAILABLE` (R106). -/
  | available
  /-- `DRIVE_LOW l` (spec/40_line_primitives.md R70). -/
  | driveLow (l : Line)
  /-- `RELEASE l` (R71). -/
  | release (l : Line)
  /-- `SAMPLE l` (R72). -/
  | sample (l : Line)
  /-- `HALF_DELAY` (R73). -/
  | halfDelay
  /-- `POLL_DELAY` (R74). -/
  | pollDelay
  /-- `STABILIZE_WAIT` (R75). -/
  | stabilizeWait
  /-- `SCL_RELEASE_WAIT` (spec/41_protocol_primitives.md R80). -/
  | sclReleaseWait
  /-- `START` (R81). -/
  | start
  /-- `STOP` (R82). -/
  | stop
  /-- `WRITE_BIT b` (R83). -/
  | writeBit (b : Level)
  /-- `READ_BIT` (R84). -/
  | readBit
  /-- `WRITE_BYTE v` (R85). -/
  | writeByte (v : Byte)
  /-- `READ_BYTE ack` (R86); `true` = acknowledge. -/
  | readByte (ack : Bool)
  deriving DecidableEq, Repr

/-- Where a command word arrives: at the host port, or injected into the sequencer by a test harness
(spec/30_encoding.md R58; log 3). -/
inductive Port where
  | host
  | sequencer
  deriving DecidableEq, Repr

end Sys2Proof
end

