-- ==== Sys2Proof/WellFormed.lean ====
section
/-! DEFINITION. Which terms are well formed: an operation at the port it may be issued at
(spec/30_encoding.md R58, R63) and the parameters of an engine (spec/00_scope.md R4). The operand ranges
of R59 are the operand types of `Instr` themselves, so every operand of an `Instr` is in range. -/

namespace Sys2Proof

/-- Class `API`: the seven commands the host may issue (spec/30_encoding.md R58). -/
def Instr.isApi : Instr → Bool
  | .beginBus => true
  | .beginTx _ => true
  | .write _ => true
  | .endTx => true
  | .requestFrom _ _ => true
  | .read => true
  | .available => true
  | .driveLow _ => false
  | .release _ => false
  | .sample _ => false
  | .halfDelay => false
  | .pollDelay => false
  | .stabilizeWait => false
  | .sclReleaseWait => false
  | .start => false
  | .stop => false
  | .writeBit _ => false
  | .readBit => false
  | .writeByte _ => false
  | .readByte _ => false

/-- An operation may be issued at the host port only when it is of class `API`
(spec/30_encoding.md R58, R63); the sequencer takes every operation (R58; log 3). -/
def Instr.wellFormedAt (i : Instr) : Port → Bool
  | .host => i.isApi
  | .sequencer => true

/-- The pin of an engine that serves a line (spec/00_scope.md R4). -/
def Params.pinOf (p : Params) : Line → Nat
  | .sda => p.sdaPin
  | .scl => p.sclPin

/-- The pins of one engine. -/
def Params.pins (p : Params) : List Nat := [p.sdaPin, p.sclPin]

/-- The pins of one engine are distinct and the stretch bound is at least 1 (spec/00_scope.md R4). -/
def Params.wellFormed (p : Params) : Bool :=
  decide (p.sdaPin ≠ p.sclPin) && decide (1 ≤ p.stretchMaxPolls)

end Sys2Proof
end

