-- ==== Sys2Proof/Decode.lean ====
section
/-! DEFINITION. Decoding of a command word and the encoder, from spec/30_encoding.md R57 to R63, and the
match and mask rows of R60, R61. -/

namespace Sys2Proof

/-- Why a word matches no row (spec/30_encoding.md R63). -/
inductive DecodeError where
  /-- The operation code is in no row. -/
  | unknownOp
  /-- Field `RSV` is not 0. -/
  | reservedNotZero
  /-- An operand bit the row requires to be 0 is set. -/
  | operandNotZero
  deriving DecidableEq, Repr

/-- Field `OP`, bits 31:24 (R57). -/
def opOf (w : CmdWord) : Byte := w.extractLsb' 24 8
/-- Field `RSV`, bits 23:16 (R57). -/
def rsvOf (w : CmdWord) : Byte := w.extractLsb' 16 8
/-- Field `A`, bits 15:8 (R57). -/
def fieldA (w : CmdWord) : Byte := w.extractLsb' 8 8
/-- Field `B`, bits 7:0 (R57). -/
def fieldB (w : CmdWord) : Byte := w.extractLsb' 0 8

/-- The line a one-bit operand names: 0 = `SDA`, 1 = `SCL` (R59). -/
def lineOfBit : Bool → Line
  | false => .sda
  | true => .scl

/-- The one-bit operand that names a line (R59). -/
def bitOfLine : Line → Bool
  | .sda => false
  | .scl => true

/-- A row without operands: both fields must be 0 (R59). -/
def noOperand (a b : Byte) (i : Instr) : Except DecodeError Instr :=
  if a = 0 ∧ b = 0 then .ok i else .error .operandNotZero

/-- A row with operand `B[7:0]` and no `A` (R59). -/
def byteOperand (a b : Byte) (f : Byte → Instr) : Except DecodeError Instr :=
  if a = 0 then .ok (f b) else .error .operandNotZero

/-- A row with operand `B[0]`: `A` and `B[7:1]` must be 0 (R59). -/
def bitOperand (a b : Byte) (f : Bool → Instr) : Except DecodeError Instr :=
  if a = 0 ∧ b.extractLsb' 1 7 = 0 then .ok (f (b.getLsbD 0)) else .error .operandNotZero

/-- The opcode map (R60), with the operand rules of R59: `A[7]` of an address operand is discarded. -/
def decodeOp (op a b : Byte) : Except DecodeError Instr :=
  match op.toNat with
  | 0x01 => noOperand a b .beginBus
  | 0x02 => if b = 0 then .ok (.beginTx (a.setWidth 7)) else .error .operandNotZero
  | 0x03 => byteOperand a b .write
  | 0x04 => noOperand a b .endTx
  | 0x05 => .ok (.requestFrom (a.setWidth 7) b)
  | 0x06 => noOperand a b .read
  | 0x07 => noOperand a b .available
  | 0x10 => bitOperand a b (fun x => .driveLow (lineOfBit x))
  | 0x11 => bitOperand a b (fun x => .release (lineOfBit x))
  | 0x12 => bitOperand a b (fun x => .sample (lineOfBit x))
  | 0x13 => noOperand a b .halfDelay
  | 0x14 => noOperand a b .pollDelay
  | 0x15 => noOperand a b .stabilizeWait
  | 0x20 => noOperand a b .sclReleaseWait
  | 0x21 => noOperand a b .start
  | 0x22 => noOperand a b .stop
  | 0x23 => bitOperand a b .writeBit
  | 0x24 => noOperand a b .readBit
  | 0x25 => byteOperand a b .writeByte
  | 0x26 => bitOperand a b .readByte
  | _ => .error .unknownOp

/-- Decoding a command word, total on all words (R57 to R63). -/
def decode (w : CmdWord) : Except DecodeError Instr :=
  if rsvOf w = 0 then decodeOp (opOf w) (fieldA w) (fieldB w) else .error .reservedNotZero

/-- A word from its fields, `RSV = 0` (R57). -/
def packWord (op a b : Byte) : CmdWord := op ++ (0 : Byte) ++ a ++ b

/-- A one-bit operand in field `B` (R59). -/
def byteOfBit (x : Bool) : Byte := (BitVec.ofBool x).setWidth 8

/-- The operation code of each operation (R60). -/
def Instr.opcode : Instr → Byte
  | .beginBus => 0x01
  | .beginTx _ => 0x02
  | .write _ => 0x03
  | .endTx => 0x04
  | .requestFrom _ _ => 0x05
  | .read => 0x06
  | .available => 0x07
  | .driveLow _ => 0x10
  | .release _ => 0x11
  | .sample _ => 0x12
  | .halfDelay => 0x13
  | .pollDelay => 0x14
  | .stabilizeWait => 0x15
  | .sclReleaseWait => 0x20
  | .start => 0x21
  | .stop => 0x22
  | .writeBit _ => 0x23
  | .readBit => 0x24
  | .writeByte _ => 0x25
  | .readByte _ => 0x26

/-- Field `A` of the encoding: the address, or 0 (R60). -/
def Instr.operandA : Instr → Byte
  | .beginTx a => a.setWidth 8
  | .requestFrom a _ => a.setWidth 8
  | _ => 0

/-- Field `B` of the encoding: the data byte, the count, the one-bit operand, or 0 (R60). -/
def Instr.operandB : Instr → Byte
  | .write b => b
  | .requestFrom _ count => count
  | .driveLow l => byteOfBit (bitOfLine l)
  | .release l => byteOfBit (bitOfLine l)
  | .sample l => byteOfBit (bitOfLine l)
  | .writeBit b => byteOfBit b
  | .writeByte v => v
  | .readByte ack => byteOfBit ack
  | _ => 0

/-- The command word of an operation (R57, R60); the ignored bit `A[7]` is written 0. -/
def encode (i : Instr) : CmdWord := packWord i.opcode i.operandA i.operandB

/-- One row of the opcode table (R60, R61): a word `w` selects it when `w &&& mask = value`. -/
structure OpcodeRow where
  mnemonic : String
  value : CmdWord
  mask : CmdWord
  deriving DecidableEq, Repr

/-- A word selects a row (R61). -/
def OpcodeRow.selectedBy (r : OpcodeRow) (w : CmdWord) : Bool := decide (w &&& r.mask = r.value)

/-- The rows of class `API` as spec/opcode_table.json has them. -/
def apiRows : List OpcodeRow :=
  [⟨"BEGIN", 0x01000000, 0xFFFFFFFF⟩,
   ⟨"BEGIN_TX", 0x02000000, 0xFFFF00FF⟩,
   ⟨"WRITE", 0x03000000, 0xFFFFFF00⟩,
   ⟨"END_TX", 0x04000000, 0xFFFFFFFF⟩,
   ⟨"REQUEST_FROM", 0x05000000, 0xFFFF0000⟩,
   ⟨"READ", 0x06000000, 0xFFFFFFFF⟩,
   ⟨"AVAILABLE", 0x07000000, 0xFFFFFFFF⟩]

/-- The rows of class `UOP` as spec/opcode_table.json has them. -/
def uopRows : List OpcodeRow :=
  [⟨"DRIVE_LOW", 0x10000000, 0xFFFFFFFE⟩,
   ⟨"RELEASE", 0x11000000, 0xFFFFFFFE⟩,
   ⟨"SAMPLE", 0x12000000, 0xFFFFFFFE⟩,
   ⟨"HALF_DELAY", 0x13000000, 0xFFFFFFFF⟩,
   ⟨"POLL_DELAY", 0x14000000, 0xFFFFFFFF⟩,
   ⟨"STABILIZE_WAIT", 0x15000000, 0xFFFFFFFF⟩,
   ⟨"SCL_RELEASE_WAIT", 0x20000000, 0xFFFFFFFF⟩,
   ⟨"START", 0x21000000, 0xFFFFFFFF⟩,
   ⟨"STOP", 0x22000000, 0xFFFFFFFF⟩,
   ⟨"WRITE_BIT", 0x23000000, 0xFFFFFFFE⟩,
   ⟨"READ_BIT", 0x24000000, 0xFFFFFFFF⟩,
   ⟨"WRITE_BYTE", 0x25000000, 0xFFFFFF00⟩,
   ⟨"READ_BYTE", 0x26000000, 0xFFFFFFFE⟩]

/-- The opcode table, 20 rows (R60, R61). -/
def opcodeRows : List OpcodeRow := apiRows ++ uopRows

/-- The mnemonic of each operation (R60). -/
def Instr.mnemonic : Instr → String
  | .beginBus => "BEGIN"
  | .beginTx _ => "BEGIN_TX"
  | .write _ => "WRITE"
  | .endTx => "END_TX"
  | .requestFrom _ _ => "REQUEST_FROM"
  | .read => "READ"
  | .available => "AVAILABLE"
  | .driveLow _ => "DRIVE_LOW"
  | .release _ => "RELEASE"
  | .sample _ => "SAMPLE"
  | .halfDelay => "HALF_DELAY"
  | .pollDelay => "POLL_DELAY"
  | .stabilizeWait => "STABILIZE_WAIT"
  | .sclReleaseWait => "SCL_RELEASE_WAIT"
  | .start => "START"
  | .stop => "STOP"
  | .writeBit _ => "WRITE_BIT"
  | .readBit => "READ_BIT"
  | .writeByte _ => "WRITE_BYTE"
  | .readByte _ => "READ_BYTE"

/-- The instruction's bits as the opcode table numbers them: the lowest `nbits` bits of `w`. -/
def tableBits (nbits w : Nat) : Nat := w % 2 ^ nbits

/-- What the decoder reads from a word of the opcode table. The command word is delivered whole, not in
bytes (spec/20_memory.md R34: the engine has no byte-endianness), so the bits need no laying out. -/
def decodeTableWord (nbits w : Nat) : Option Instr :=
  if tableBits nbits w < 2 ^ 32 then
    match decode (BitVec.ofNat 32 (tableBits nbits w)) with
    | .ok i => some i
    | .error _ => none
  else none

/-- The port a word is issued at when it is to be run: an `API` word and an illegal word at the host
port, a `UOP` word injected into the sequencer (R58; log 2, log 3). -/
def portOfWord (w : CmdWord) : Port :=
  match decode w with
  | .ok i => if i.isApi then .host else .sequencer
  | .error _ => .host

end Sys2Proof
end

