-- ==== Sys2Proof/Machine/State.lean ====
section
/-! DEFINITION. The state of one engine as plain data: everything spec/10_state.md gives the machine, and
the model's own input and output records (INVENTORY.md, section State). -/

namespace Sys2Proof.Machine

/-- The mode of a pin, `SDA_MODE` and `SCL_MODE` (spec/10_state.md R21). -/
inductive PinMode where
  | unconfigured
  | inPullup
  | outLatch
  | outLow
  deriving DecidableEq, Repr

/-- One pin: its mode (R21) and its output latch (spec/10_state.md R24 (1)). -/
structure Pin where
  mode : PinMode
  latch : Level
  deriving DecidableEq, Repr

/-- `PHASE`, the sequencer state (spec/10_state.md R15 to R17). -/
inductive Phase where
  | idle
  | start
  | addressByte
  | dataByte
  | ackOrNack
  | stop
  deriving DecidableEq, Repr

/-- A pin event. All but `latchOut` are the tokens of spec/00_scope.md R7. -/
inductive Event where
  /-- Step 1 of `DriveLow` (spec/40_line_primitives.md R70): the pin is an output and drives its latch,
  which holds level `v`. No token of R7. -/
  | latchOut (l : Line) (v : Level)
  /-- `SDA:L`, `SCL:L`: `DriveLow` has completed. -/
  | low (l : Line)
  /-- `SDA:Z`, `SCL:Z`: `Release` has completed. -/
  | floated (l : Line)
  /-- `SDA?v`, `SCL?v`: `Sample` returned `v`. -/
  | sampled (l : Line) (v : Level)
  /-- `h`: one `HalfDelay()`. -/
  | half
  /-- `p`: one `PollDelay()`. -/
  | poll
  /-- `W`: one `StabilizeWait()`. -/
  | stabilize
  deriving DecidableEq, Repr

/-- A pin event and the `PHASE` it happened in (log 11). -/
structure Entry where
  phase : Phase
  event : Event
  deriving DecidableEq, Repr

/-- The environment's answers on one line (spec/20_memory.md R38): the levels it will leave the line at
when the engine has released it, oldest first, and how many free answers were drawn after the written
ones ran out (log 5). -/
structure EnvStream where
  script : List Level
  drawn : Nat
  deriving DecidableEq, Repr

/-- The line side of the engine: the two pins, the sequencer phase, what the environment will answer, and
what happened on the pins. -/
structure Bus where
  sda : Pin
  scl : Pin
  phase : Phase
  envSda : EnvStream
  envScl : EnvStream
  /-- Engine-side free values drawn so far (log 7, log 10). -/
  draws : Nat
  /-- Ghost flag: a stretch timed out (spec/60_exceptions.md R123, decision D25; log 12). -/
  stretchTimedOut : Bool
  /-- The pin events performed, oldest first (log 11). -/
  trace : List Entry
  deriving DecidableEq, Repr

/-- A command word and the port it arrives at. -/
structure Request where
  port : Port
  word : CmdWord
  deriving DecidableEq, Repr

/-- The status `END_TX` returns (spec/42_transaction_api.md R103): a three-valued enumeration, as
spec/30_encoding.md R62 asks. -/
inductive Status where
  | ok
  | addrNack
  | dataNack
  deriving DecidableEq, Repr

/-- What an operation answers (spec/30_encoding.md R60, R62, R63). -/
inductive Response where
  /-- No result. -/
  | noValue
  /-- `accepted` of `WRITE`. -/
  | accepted (b : Bool)
  /-- `status` of `END_TX`. -/
  | status (st : Status)
  /-- `bytesReceived` of `REQUEST_FROM`. -/
  | received (n : Fin 33)
  /-- The byte of `READ` and `READ_BYTE`. -/
  | byte (v : Byte)
  /-- The count of `AVAILABLE`. -/
  | count (n : Fin 33)
  /-- The level of `SAMPLE`. -/
  | level (v : Level)
  /-- The bit of `READ_BIT`. -/
  | bit (v : Level)
  /-- `acked` of `WRITE_BYTE`. -/
  | acked (b : Bool)
  /-- The out-of-band indication `ILLEGAL`. -/
  | illegal
  deriving DecidableEq, Repr

end Sys2Proof.Machine

namespace Sys2Proof.Machine

/-- The state of one engine (spec/10_state.md section 1), its parameters (spec/00_scope.md R4), and the
model's input and output records. -/
structure State where
  /-- Parameters of the instance; no operation writes them. -/
  params : Params
  /-- `ADDR` (R10). -/
  addr : Addr
  /-- `TXLEN` (R11). -/
  txLen : Fin 33
  /-- `RXLEN` (R12). -/
  rxLen : Fin 33
  /-- `RXCUR` (R13). -/
  rxCur : Fin 33
  /-- `TXACTIVE` (R18). -/
  txActive : Bool
  /-- `TXBUF[0..31]` (spec/20_memory.md R30). -/
  txBuf : Vector Byte 32
  /-- `RXBUF[0..31]` (spec/20_memory.md R32). -/
  rxBuf : Vector Byte 32
  /-- The pins, `PHASE` and the wire side. -/
  bus : Bus
  /-- The words that will be issued, oldest first: an input (log 2). -/
  incoming : List Request
  /-- The last response given (spec/30_encoding.md R62, R63); none before the first (log 13). -/
  response : Option Response
  /-- How often the reset input was asserted (log 18). -/
  resets : Nat
  deriving DecidableEq, Repr

/-- Why a step stops. No constructor: the engine has no fault state, no lock-up state and no state from
which the next command is not accepted (spec/60_exceptions.md R125). -/
inductive Fault where
  deriving DecidableEq, Repr

/-- Why an operation has no meaning. -/
inductive Refusal where
  /-- Raised by `exec` for an operation without a meaning; safe. No arm of this model raises it. -/
  | notModelled (mnemonic : String)
  deriving DecidableEq, Repr

/-- A pin after reset: mode `UNCONFIGURED` (R25), the latch unspecified (R24 (1); log 7). -/
def Pin.atReset (pin : Nat) (k : Nat) : Pin where
  mode := .unconfigured
  latch := Config.resetLatch pin k

/-- The state right after construction with parameters `p`, when the reset input was asserted `k` times
since (spec/10_state.md R25, spec/70_reset_and_hazards.md R140, R141). Unspecified values are free, for each
engine its own (log 6, log 7, log 17). -/
def State.construct (p : Params) (k : Nat) : State where
  params := p
  addr := Config.resetAddr p.sdaPin p.sclPin k
  txLen := 0
  rxLen := 0
  rxCur := 0
  txActive := false
  txBuf := Vector.ofFn fun i => Config.resetTxByte p.sdaPin p.sclPin k i.val
  rxBuf := Vector.ofFn fun i => Config.resetRxByte p.sdaPin p.sclPin k i.val
  bus :=
    { sda := Pin.atReset p.sdaPin k
      scl := Pin.atReset p.sclPin k
      phase := .idle
      envSda := ⟨[], 0⟩
      envScl := ⟨[], 0⟩
      draws := 0
      stretchTimedOut := false
      trace := [] }
  incoming := []
  response := none
  resets := k

/-- The machine right after reset (R25, R140): no command issued yet, nothing on the pins. -/
def State.reset : State := State.construct Config.params 0

end Sys2Proof.Machine
end

