-- ==== Sys2Proof/Machine/Operands.lean ====
section
/-! DEFINITION. The operands the engine assembles (spec/30_encoding.md R52, R59), the bit order of a byte
(spec/20_memory.md R34), the clamp of `count`, and the reads and writes of the two buffers
(spec/20_memory.md R31, R33). -/

namespace Sys2Proof.Machine

/-- The direction bit of an address byte: 0 for `END_TX`, 1 for `REQUEST_FROM` (spec/30_encoding.md R52). -/
inductive Direction where
  | write
  | read
  deriving DecidableEq, Repr

/-- The `rw` bit (R52). -/
def rwBit : Direction → BitVec 1
  | .write => 0
  | .read => 1

/-- The address byte, with `a[6:0]` in bits 7:1 and `rw` in bit 0 (R52). -/
def addrByte (a : Addr) (d : Direction) : Byte := a ++ rwBit d

/-- `min(count, 32)` (spec/42_transaction_api.md R104). -/
def clampCount (count : Byte) : Fin 33 :=
  ⟨min count.toNat 32, by omega⟩

/-- The order in which the bits of a byte are transferred: bit 7 first (spec/20_memory.md R34). -/
def bitOrder : List Nat := [7, 6, 5, 4, 3, 2, 1, 0]

/-- One received bit as a byte, `0x00` or `0x01`. -/
def byteOfLevel (v : Level) : Byte := (BitVec.ofBool v).setWidth 8

/-- `((v << 1) | bit) & 0xFF` (spec/41_protocol_primitives.md R86). -/
def shiftIn (v : Byte) (b : Level) : Byte := (v <<< 1) ||| byteOfLevel b

/-- The bytes queued in the transmit buffer, in the order they were accepted: `TXBUF[0..TXLEN-1]`
(spec/10_state.md R11). -/
def State.queued (s : State) : List Byte := s.txBuf.toList.take s.txLen.val

/-- The received bytes not read yet: `RXBUF[RXCUR..RXLEN-1]` (spec/20_memory.md R32). -/
def State.unread (s : State) : List Byte := (s.rxBuf.toList.take s.rxLen.val).drop s.rxCur.val

/-- `TXBUF[TXLEN] <- b; TXLEN <- TXLEN + 1` when `TXLEN < 32` (spec/20_memory.md R31); no change when
the buffer is full. -/
def State.pushTx (s : State) (b : Byte) : State :=
  if h : s.txLen.val < 32 then
    { s with txBuf := s.txBuf.setIfInBounds s.txLen.val b, txLen := ⟨s.txLen.val + 1, by omega⟩ }
  else s

/-- The next unread byte `RXBUF[RXCUR]` when `RXCUR < RXLEN`, else `0x00`
(spec/42_transaction_api.md R105). -/
def State.nextUnread (s : State) : Byte :=
  if h : s.rxCur.val < s.rxLen.val then s.rxBuf[s.rxCur.val]'(by omega) else 0

/-- `RXCUR <- RXCUR + 1` when `RXCUR < RXLEN`, else no change (R105). -/
def State.advanceRx (s : State) : State :=
  if h : s.rxCur.val < s.rxLen.val then { s with rxCur := ⟨s.rxCur.val + 1, by omega⟩ } else s

/-- `RXLEN - RXCUR` (R106). -/
def State.unreadCount (s : State) : Fin 33 := ⟨s.rxLen.val - s.rxCur.val, by omega⟩

end Sys2Proof.Machine
end

