-- ==== Sys2Proof/Machine/Flags.lean ====
section
/-! DEFINITION. The one flag `TXACTIVE` (spec/10_state.md R18), the acknowledge tests (R19: the engine has
no condition codes; `acked` is a transient result), and the response word (spec/30_encoding.md R62). -/

namespace Sys2Proof.Machine

/-- The receiver of a byte acknowledges by level 0 (spec/00_scope.md R6): `acked` is true when the sampled
ninth bit is 0 (spec/41_protocol_primitives.md R85). -/
def ackedBy (ninth : Level) : Bool := !ninth

/-- The level the engine drives as the ninth bit of a received byte: 0 to acknowledge, 1 not to
(spec/41_protocol_primitives.md R86). -/
def ackLevel (ack : Bool) : Level := !ack

/-- `BEGIN_TX` marks a transmission in progress (spec/10_state.md R18). -/
def State.markInProgress (s : State) : State := { s with txActive := true }

/-- `END_TX` clears the flag and empties the transmit buffer on every path
(spec/42_transaction_api.md R103). -/
def State.clearTx (s : State) : State := { s with txLen := 0, txActive := false }

/-- The numeric status codes `ST_OK`, `ST_ADDR_NACK`, `ST_DATA_NACK` (spec/00_scope.md R4,
spec/30_encoding.md R62). -/
def Status.code : Status → Byte
  | .ok => 0
  | .addrNack => 2
  | .dataNack => 3

/-- A boolean result as a response byte (spec/30_encoding.md R62). -/
def boolCode (b : Bool) : Byte := if b then 1 else 0

/-- The response word `RSP[7:0]` (spec/30_encoding.md R62); `ILLEGAL` is out of band and no word. -/
def Response.rsp : Response → Option Byte
  | .noValue => some 0
  | .accepted b => some (boolCode b)
  | .status st => some st.code
  | .received n => some (BitVec.ofNat 8 n.val)
  | .byte v => some v
  | .count n => some (BitVec.ofNat 8 n.val)
  | .level v => some (boolCode v)
  | .bit v => some (boolCode v)
  | .acked b => some (boolCode b)
  | .illegal => none

end Sys2Proof.Machine
end

