-- ==== Sys2Proof/Machine/Ops.lean ====
section
/-! DEFINITION. The shared operations: the wire (spec/20_memory.md R37, R38), the line primitives
(spec/40_line_primitives.md), the protocol primitives (spec/41_protocol_primitives.md), the two
transactions (spec/42_transaction_api.md R103, R104), taking a command word from a port, the refusal of an
illegal word (spec/30_encoding.md R63), and the reset input (spec/70_reset_and_hazards.md R140).

The engine has no exception entry and no return from one: an error is an outcome inside a transaction and
the command's own return is the end of it (spec/60_exceptions.md R128, R129). -/

namespace Sys2Proof.Machine

/-! ### Access to the bus by line -/

def Bus.pin (b : Bus) : Line → Pin
  | .sda => b.sda
  | .scl => b.scl

def Bus.setPin (b : Bus) (l : Line) (p : Pin) : Bus :=
  match l with
  | .sda => { b with sda := p }
  | .scl => { b with scl := p }

def Bus.env (b : Bus) : Line → EnvStream
  | .sda => b.envSda
  | .scl => b.envScl

def Bus.setEnv (b : Bus) (l : Line) (e : EnvStream) : Bus :=
  match l with
  | .sda => { b with envSda := e }
  | .scl => { b with envScl := e }

def Bus.setPhase (b : Bus) (p : Phase) : Bus := { b with phase := p }

/-- A pin event happens (spec/00_scope.md R7). -/
def Bus.emit (b : Bus) (e : Event) : Bus := { b with trace := b.trace ++ [⟨b.phase, e⟩] }

/-! ### The wire -/

/-- `Level(l)` for a pin and the environment's pull (spec/20_memory.md R37). `free` is the level taken
where R37 says unspecified. A latch holding low against a device pulling low reads low (log 8). -/
def wireLevel (p : Pin) (envLow : Bool) (free : Level) : Level :=
  match p.mode with
  | .outLow => false
  | .inPullup => !envLow
  | .outLatch => if envLow then (if p.latch then free else false) else p.latch
  | .unconfigured => free

/-- The electrical level of line `l` when the environment pulls it low or not (R37), looked at at a moment
that is the observer's, not the engine's: an unspecified level is free for each pin, moment and pull, so it
may change while the engine does nothing (log 8). -/
def Bus.level (b : Bus) (p : Params) (l : Line) (moment : Nat) (envLow : Bool) : Level :=
  wireLevel (b.pin l) envLow (Config.freeLevel (p.pinOf l) moment envLow)

/-- The environment's next answer on the line of a pin: the level it leaves the released line at
(spec/20_memory.md R38). When no written answer is left, a free value, for each pin its own
(log 5, log 17). -/
def EnvStream.next (pin : Nat) (e : EnvStream) : Level × EnvStream :=
  match e.script with
  | v :: rest => (v, { e with script := rest })
  | [] => (Config.freeFloat pin e.drawn, { e with drawn := e.drawn + 1 })

/-! ### Line primitives -/

/-- The level the output latch holds when the pin becomes an output: `OUT_LATCH_ON_CONFIG`, with `any`
drawn anew at each call, for each pin its own draws (spec/40_line_primitives.md R70; log 7, log 17). -/
def latchOnConfig (p : Params) (l : Line) (b : Bus) : Level :=
  match p.outLatch with
  | .low => false
  | .high => true
  | .any => Config.freeLatch (p.pinOf l) b.draws

/-- The draw counter after `latchOnConfig`. -/
def drawsOnConfig (o : OutLatch) (b : Bus) : Nat :=
  match o with
  | .low => b.draws
  | .high => b.draws
  | .any => b.draws + 1

/-- Step 1 of `DriveLow`: "configure as output" (R70). -/
def configureOutput (p : Params) (l : Line) (b : Bus) : Bus :=
  (({ b with draws := drawsOnConfig p.outLatch b }).setPin l
    ⟨.outLatch, latchOnConfig p l b⟩).emit (.latchOut l (latchOnConfig p l b))

/-- Step 2 of `DriveLow`: "assert logical low" (R70). -/
def assertLow (l : Line) (b : Bus) : Bus := (b.setPin l ⟨.outLow, false⟩).emit (.low l)

/-- `DriveLow(l)` (R70). -/
def driveLow (p : Params) (l : Line) (b : Bus) : Bus := assertLow l (configureOutput p l b)

/-- "Configure as input with pull-up" (R71, R72): the latch keeps what it holds. -/
def configureInput (l : Line) (b : Bus) : Bus := b.setPin l ⟨.inPullup, (b.pin l).latch⟩

/-- `Release(l)` (R71). -/
def release (l : Line) (b : Bus) : Bus := (configureInput l b).emit (.floated l)

/-- What `Sample(l)` returns: `Level(l)` once the pin is an input with pull-up (R72). -/
def sampledLevel (p : Params) (l : Line) (b : Bus) : Level :=
  (configureInput l b).level p l b.trace.length (!((b.env l).next (p.pinOf l)).1)

/-- `Sample(l)` (R72): the result and the bus after it. -/
def sample (p : Params) (l : Line) (b : Bus) : Level × Bus :=
  (sampledLevel p l b,
    ((configureInput l b).setEnv l ((b.env l).next (p.pinOf l)).2).emit (.sampled l (sampledLevel p l b)))

/-- `HalfDelay()` (R73). -/
def halfDelay (b : Bus) : Bus := b.emit .half

/-- `PollDelay()` (R74). -/
def pollDelay (b : Bus) : Bus := b.emit .poll

/-- `StabilizeWait()` (R75). -/
def stabilizeWait (b : Bus) : Bus := b.emit .stabilize

/-! ### Protocol primitives -/

/-- The poll loop of `SclReleaseWait` with a number of polls left (spec/41_protocol_primitives.md R80).
The timeout path only sets the ghost flag (log 12). -/
def pollLoop (p : Params) : Nat → Bus → Bus
  | 0, b => { b with stretchTimedOut := true }
  | k + 1, b =>
    if (sample p .scl b).1 then (sample p .scl b).2 else pollLoop p k (pollDelay (sample p .scl b).2)

/-- `SclReleaseWait()` (R80). -/
def sclReleaseWait (p : Params) (b : Bus) : Bus := pollLoop p p.stretchMaxPolls (release .scl b)

/-- `Release(SDA); HalfDelay()`. -/
def releaseSda (b : Bus) : Bus := halfDelay (release .sda b)

/-- `DriveLow(l); HalfDelay()`. -/
def pullLow (p : Params) (l : Line) (b : Bus) : Bus := halfDelay (driveLow p l b)

/-- `SclReleaseWait(); HalfDelay()`: the clock line goes high (or the stretch times out). -/
def clockHigh (p : Params) (b : Bus) : Bus := halfDelay (sclReleaseWait p b)

/-- `Start()` (R81). -/
def startCondition (p : Params) (b : Bus) : Bus :=
  pullLow p .scl (pullLow p .sda (clockHigh p (releaseSda (b.setPhase .start))))

/-- `Stop()` (R82). -/
def stopCondition (p : Params) (b : Bus) : Bus :=
  (releaseSda (clockHigh p (pullLow p .sda (b.setPhase .stop)))).setPhase .idle

/-- The data line set to a bit value, and its delay (R83): 1 by releasing it, 0 by driving it low. -/
def setData (p : Params) (v : Level) (b : Bus) : Bus :=
  if v then releaseSda b else pullLow p .sda b

/-- `WriteBit(v)` (R83). -/
def writeBit (p : Params) (v : Level) (b : Bus) : Bus :=
  pullLow p .scl (clockHigh p (setData p v b))

/-- `ReadBit()` (R84): the sampled bit and the bus after it. -/
def readBit (p : Params) (b : Bus) : Level × Bus :=
  let r := sample p .sda (clockHigh p (releaseSda b))
  (r.1, pullLow p .scl r.2)

/-- The eight data cells of `WriteByte`, bit 7 first (R85). -/
def writeBits (p : Params) (v : Byte) (b : Bus) : Bus :=
  bitOrder.foldl (fun b i => writeBit p (v.getLsbD i) b) b

/-- The eight data cells of `ReadByte`, the first bit read ending up in bit 7 (R86). -/
def readBits (p : Params) (b : Bus) : Byte × Bus :=
  bitOrder.foldl
    (fun acc _ =>
      let r := readBit p acc.2
      (shiftIn acc.1 r.1, r.2))
    (0, b)

/-- What a byte the engine sends is (spec/10_state.md R17). -/
inductive ByteRole where
  | address
  | data
  deriving DecidableEq, Repr

/-- The `PHASE` of a sent byte (spec/10_state.md R17). -/
def rolePhase : ByteRole → Phase
  | .address => .addressByte
  | .data => .dataByte

/-- `WriteByte(v)` (R85): whether the byte was acknowledged, and the bus after it. -/
def writeByte (p : Params) (role : ByteRole) (v : Byte) (b : Bus) : Bool × Bus :=
  let r := readBit p ((writeBits p v (b.setPhase (rolePhase role))).setPhase .ackOrNack)
  (ackedBy r.1, r.2)

/-- `ReadByte(ack)` (R86): the byte and the bus after it. -/
def readByte (p : Params) (ack : Bool) (b : Bus) : Byte × Bus :=
  let r := readBits p (b.setPhase .dataByte)
  (r.1, writeBit p (ackLevel ack) (r.2.setPhase .ackOrNack))

/-- The role of a byte a harness injects: neither the address byte nor a data byte of a command, so a
free value, for each engine its own (log 10, log 17). -/
def injectedRole (p : Params) (b : Bus) : ByteRole :=
  if Config.freeByteRole p.sdaPin p.sclPin b.draws then .address else .data

/-! ### Transactions -/

/-- The data bytes of `END_TX`: sent in order until one is not acknowledged
(spec/42_transaction_api.md R103). -/
def sendBytes (p : Params) : List Byte → Bus → Status × Bus
  | [], b => (.ok, b)
  | v :: rest, b =>
    let r := writeByte p .data v b
    if r.1 then sendBytes p rest r.2 else (.dataNack, r.2)

/-- The write transaction of `END_TX` (R103): `Start`, the address byte, the data bytes, and exactly one
`Stop` on every path. -/
def writeTransaction (p : Params) (a : Addr) (data : List Byte) (b : Bus) : Status × Bus :=
  let r := writeByte p .address (addrByte a .write) (startCondition p b)
  let q := if r.1 then sendBytes p data r.2 else (.addrNack, r.2)
  (q.1, stopCondition p q.2)

/-- The loop of `REQUEST_FROM` (R104): `RXBUF[i] <- ReadByte(i < n-1)` for `i` in `0..n-1`. -/
def receiveBytes (p : Params) (n : Nat) (rx : Vector Byte 32) (b : Bus) : Vector Byte 32 × Bus :=
  (List.range n).foldl
    (fun acc i =>
      let r := readByte p (decide (i < n - 1)) acc.2
      (acc.1.setIfInBounds i r.1, r.2))
    (rx, b)

/-- What a read transaction leaves: whether the address byte was acknowledged, the receive cells, the bus. -/
structure ReadOutcome where
  addressAcked : Bool
  cells : Vector Byte 32
  bus : Bus
  deriving DecidableEq, Repr

/-- The read transaction of `REQUEST_FROM` (R104). -/
def readTransaction (p : Params) (a : Addr) (n : Nat) (rx : Vector Byte 32) (b : Bus) : ReadOutcome :=
  let r := writeByte p .address (addrByte a .read) (startCondition p b)
  if r.1 then
    let q := receiveBytes p n rx r.2
    ⟨true, q.1, stopCondition p q.2⟩
  else ⟨false, rx, stopCondition p r.2⟩

/-! ### Responses, the ports, reset -/

/-- The operation answers. -/
def State.respond (s : State) (r : Response) : State := { s with response := some r }

/-- The operation leaves a bus and answers. -/
def State.finish (s : State) (b : Bus) (r : Response) : State := { s with bus := b, response := some r }

/-- An illegal word: no register, buffer or pin changes, no pin event, and the answer is `ILLEGAL`
(spec/30_encoding.md R63; log 4). -/
def refuseWord (s : State) : State := s.respond .illegal

/-- What is found when the next word is taken. -/
inductive Fetched where
  /-- Nothing was issued: the engine is at rest (spec/10_state.md R14). -/
  | atRest
  /-- The word is illegal (spec/30_encoding.md R63). -/
  | illegal (s : State)
  /-- The word is an operation to execute. -/
  | run (i : Instr) (s : State)

/-- The next word is taken from its port and decoded (spec/30_encoding.md R58, R63). -/
def fetch (s : State) : Fetched :=
  match s.incoming with
  | [] => .atRest
  | r :: rest =>
    match decode r.word with
    | .ok i =>
      if i.wellFormedAt r.port then .run i { s with incoming := rest }
      else .illegal { s with incoming := rest }
    | .error _ => .illegal { s with incoming := rest }

/-- A word placed in front of everything still to be issued. -/
def State.issueNext (s : State) (r : Request) : State := { s with incoming := r :: s.incoming }

/-- The reset input is asserted (spec/70_reset_and_hazards.md R140, R141): every piece of the engine's
state is put at the value of R25, no pin event happens; the parameters, the environment's answers and the
words still to be issued are not the engine's and stay (log 18). -/
def applyReset (s : State) : State :=
  let fresh := State.construct s.params (s.resets + 1)
  { fresh with
    bus := { fresh.bus with
      envSda := s.bus.envSda, envScl := s.bus.envScl, draws := s.bus.draws, trace := s.bus.trace }
    incoming := s.incoming }

end Sys2Proof.Machine
end

