-- ==== Sys2Proof/Machine/Line.lean ====
section
/-! DEFINITION. The meanings of the line-level primitives (spec/40_line_primitives.md). -/

namespace Sys2Proof.Machine

/-- `DRIVE_LOW l` (R70). -/
def execDriveLow (l : Line) (s : State) : Host.Outcome State Fault Refusal :=
  .next (s.finish (driveLow s.params l s.bus) .noValue)

/-- `RELEASE l` (R71). -/
def execRelease (l : Line) (s : State) : Host.Outcome State Fault Refusal :=
  .next (s.finish (release l s.bus) .noValue)

/-- `SAMPLE l` (R72). -/
def execSample (l : Line) (s : State) : Host.Outcome State Fault Refusal :=
  .next (s.finish (sample s.params l s.bus).2 (.level (sample s.params l s.bus).1))

/-- `HALF_DELAY` (R73). -/
def execHalfDelay (s : State) : Host.Outcome State Fault Refusal :=
  .next (s.finish (halfDelay s.bus) .noValue)

/-- `POLL_DELAY` (R74). -/
def execPollDelay (s : State) : Host.Outcome State Fault Refusal :=
  .next (s.finish (pollDelay s.bus) .noValue)

/-- `STABILIZE_WAIT` (R75). -/
def execStabilizeWait (s : State) : Host.Outcome State Fault Refusal :=
  .next (s.finish (stabilizeWait s.bus) .noValue)

end Sys2Proof.Machine
end

