-- ==== Sys2Proof/Machine/Protocol.lean ====
section
/-! DEFINITION. The meanings of the protocol primitives (spec/41_protocol_primitives.md). -/

namespace Sys2Proof.Machine

/-- `SCL_RELEASE_WAIT` (R80). -/
def execSclReleaseWait (s : State) : Host.Outcome State Fault Refusal :=
  .next (s.finish (sclReleaseWait s.params s.bus) .noValue)

/-- `START` (R81). -/
def execStart (s : State) : Host.Outcome State Fault Refusal :=
  .next (s.finish (startCondition s.params s.bus) .noValue)

/-- `STOP` (R82). -/
def execStop (s : State) : Host.Outcome State Fault Refusal :=
  .next (s.finish (stopCondition s.params s.bus) .noValue)

/-- `WRITE_BIT v` (R83). -/
def execWriteBit (v : Level) (s : State) : Host.Outcome State Fault Refusal :=
  .next (s.finish (writeBit s.params v s.bus) .noValue)

/-- `READ_BIT` (R84). -/
def execReadBit (s : State) : Host.Outcome State Fault Refusal :=
  let r := readBit s.params s.bus
  .next (s.finish r.2 (.bit r.1))

/-- `WRITE_BYTE v` (R85). The `PHASE` of an injected byte is a free value (log 10). -/
def execWriteByte (v : Byte) (s : State) : Host.Outcome State Fault Refusal :=
  let r := writeByte s.params (injectedRole s.params s.bus) v { s.bus with draws := s.bus.draws + 1 }
  .next (s.finish r.2 (.acked r.1))

/-- `READ_BYTE ack` (R86). -/
def execReadByte (ack : Bool) (s : State) : Host.Outcome State Fault Refusal :=
  let r := readByte s.params ack s.bus
  .next (s.finish r.2 (.byte r.1))

end Sys2Proof.Machine
end

