-- ==== Sys2Proof/Machine/Transaction.lean ====
section
/-! DEFINITION. The meanings of the seven transaction API commands (spec/42_transaction_api.md). -/

namespace Sys2Proof.Machine

/-- `BEGIN` (R100): `Release(SDA)`, `Release(SCL)`, `StabilizeWait()`; no register or buffer changes. -/
def execBeginBus (s : State) : Host.Outcome State Fault Refusal :=
  .next (s.finish (stabilizeWait (release .scl (release .sda s.bus))) .noValue)

/-- `BEGIN_TX a` (R101). -/
def execBeginTx (a : Addr) (s : State) : Host.Outcome State Fault Refusal :=
  .next (({ s with txLen := 0, addr := a }).markInProgress.respond .noValue)

/-- `WRITE b` (R102). -/
def execWrite (b : Byte) (s : State) : Host.Outcome State Fault Refusal :=
  .next ((s.pushTx b).respond (.accepted (decide (s.txLen.val < 32))))

/-- `END_TX` (R103). -/
def execEndTx (s : State) : Host.Outcome State Fault Refusal :=
  let r := writeTransaction s.params s.addr s.queued s.bus
  .next (s.clearTx.finish r.2 (.status r.1))

/-- `ADDR` after `REQUEST_FROM` was given address `a`: unchanged when `RF_RECORDS_ADDR` is false (R104). -/
def State.addrAfterRequest (s : State) (a : Addr) : Addr :=
  if s.params.rfRecordsAddr then a else s.addr

/-- `REQUEST_FROM a, count` (R104). -/
def execRequestFrom (a : Addr) (count : Byte) (s : State) : Host.Outcome State Fault Refusal :=
  let r := readTransaction s.params a (clampCount count).val s.rxBuf s.bus
  let n := if r.addressAcked then clampCount count else 0
  .next (({ s with addr := s.addrAfterRequest a, rxBuf := r.cells, rxLen := n, rxCur := 0 }).finish
    r.bus (.received n))

/-- `READ` (R105). -/
def execRead (s : State) : Host.Outcome State Fault Refusal :=
  .next (s.advanceRx.respond (.byte s.nextUnread))

/-- `AVAILABLE` (R106). -/
def execAvailable (s : State) : Host.Outcome State Fault Refusal :=
  .next (s.respond (.count s.unreadCount))

end Sys2Proof.Machine
end

