-- ==== Sys2Proof/Machine/Dispatch.lean ====
section
/-! DEFINITION. One arm for each operation. -/

namespace Sys2Proof.Machine

def exec (i : Instr) (s : State) : Host.Outcome State Fault Refusal :=
  match i with
  | .beginBus => Sys2Proof.Machine.execBeginBus s
  | .beginTx a => Sys2Proof.Machine.execBeginTx a s
  | .write b => Sys2Proof.Machine.execWrite b s
  | .endTx => Sys2Proof.Machine.execEndTx s
  | .requestFrom a count => Sys2Proof.Machine.execRequestFrom a count s
  | .read => Sys2Proof.Machine.execRead s
  | .available => Sys2Proof.Machine.execAvailable s
  | .driveLow l => Sys2Proof.Machine.execDriveLow l s
  | .release l => Sys2Proof.Machine.execRelease l s
  | .sample l => Sys2Proof.Machine.execSample l s
  | .halfDelay => Sys2Proof.Machine.execHalfDelay s
  | .pollDelay => Sys2Proof.Machine.execPollDelay s
  | .stabilizeWait => Sys2Proof.Machine.execStabilizeWait s
  | .sclReleaseWait => Sys2Proof.Machine.execSclReleaseWait s
  | .start => Sys2Proof.Machine.execStart s
  | .stop => Sys2Proof.Machine.execStop s
  | .writeBit b => Sys2Proof.Machine.execWriteBit b s
  | .readBit => Sys2Proof.Machine.execReadBit s
  | .writeByte v => Sys2Proof.Machine.execWriteByte v s
  | .readByte ack => Sys2Proof.Machine.execReadByte ack s

end Sys2Proof.Machine
end

