-- ==== Sys2Proof/Machine/Step.lean ====
section
/-! DEFINITION. One step: the next word is taken and executed to completion, refused, or, when nothing was
issued, the engine stays at rest (spec/10_state.md R14, spec/42_transaction_api.md R107). -/

namespace Sys2Proof.Machine

/-- One command to completion (log 1). -/
def step (s : State) : Host.Outcome State Fault Refusal :=
  match fetch s with
  | .atRest => .next s
  | .illegal t => .next (refuseWord t)
  | .run i t => exec i t

/-- The state in which the very next step takes the word `w`, at the host port when it is an `API` word and
injected into the sequencer when it is a `UOP` word (log 2, log 3). -/
def State.withFetchWord (s : State) (nbits w : Nat) : State :=
  s.issueNext ⟨portOfWord (BitVec.ofNat 32 (tableBits nbits w)), BitVec.ofNat 32 (tableBits nbits w)⟩

end Sys2Proof.Machine
end

