-- ==== Sys2Proof/Machine/System.lean ====
section
/-! DEFINITION. Several engines on one microcontroller (spec/10_state.md R27, spec/60_exceptions.md R134):
independent copies of the state over disjoint pins, whose commands the one host thread issues one after
another. -/

namespace Sys2Proof.Machine

/-- The engines of one microcontroller. -/
abbrev System := List State

/-- The parameters of several engines may stand together: each is well formed and no pin is used twice
(R134). -/
def systemWellFormed (ps : List Params) : Bool :=
  ps.all Params.wellFormed && decide (ps.flatMap Params.pins).Nodup

/-- Construction: refused when two engines, or the two roles of one engine, share a pin (R134, U8, D28;
log 17). Every engine is at its own reset state: the values the spec leaves unspecified, and the answers of the
environment on its lines, are free for each pin, so nothing makes two engines agree in them (R27; log 17). -/
def System.build (ps : List Params) : Option System :=
  if systemWellFormed ps then some (ps.map fun p => State.construct p 0) else none

/-- The host lets engine `k` take one step; the others do nothing (R134: never at the same time). -/
def System.stepAt (k : Nat) (sys : System) : System :=
  match sys[k]? with
  | none => sys
  | some s =>
    match step s with
    | .next t => sys.set k t
    | .fault _ => sys
    | .refused _ => sys

end Sys2Proof.Machine
end

