-- ==== Sys2Proof/Machine/Timing.lean ====
section
/-! DEFINITION. Nominal durations, for orientation only (spec/00_scope.md R4, spec/70_reset_and_hazards.md
R163, R164): the model holds no time, and no operation reads these figures (log 16). -/

namespace Sys2Proof.Machine

/-- `T_HALF`, nominal, in microseconds (R4). -/
def nominalHalf : Nat := 5
/-- `T_POLL`, nominal, in microseconds (R4). -/
def nominalPoll : Nat := 1
/-- `T_STABILIZE`, nominal, in microseconds (R4). -/
def nominalStabilize : Nat := 10000

/-- The nominal duration of a pin event: only the delays take time (R164). -/
def Event.nominalMicros : Event → Nat
  | .half => nominalHalf
  | .poll => nominalPoll
  | .stabilize => nominalStabilize
  | .latchOut _ _ => 0
  | .low _ => 0
  | .floated _ => 0
  | .sampled _ _ => 0

/-- The nominal duration of a list of pin events. -/
def nominalTime (es : List Event) : Nat := (es.map Event.nominalMicros).sum

end Sys2Proof.Machine
end

