-- ==== Sys2Proof/Safety.lean ====
section
/-! DEFINITION. The terms claims are written in: the pin-event trace of spec/00_scope.md R7, the wire
formats of spec/30_encoding.md R50 to R55, the reading of a trace by a bus monitor (R53,
spec/95_test_vectors.md section 1), the invariants of spec/10_state.md R23, and what "nothing else changes"
means. No operation of the machine reads any of this. -/

namespace Sys2Proof.Machine

/-! ### Reading the trace -/

/-- The pin events performed, without the `PHASE` column. -/
def Bus.events (b : Bus) : List Event := b.trace.map Entry.event

/-- The tokens of spec/00_scope.md R7: every event but the transient of `DriveLow`. -/
def Event.isToken : Event → Bool
  | .latchOut _ _ => false
  | .low _ => true
  | .floated _ => true
  | .sampled _ _ => true
  | .half => true
  | .poll => true
  | .stabilize => true

/-- The trace of R7. -/
def Bus.tokens (b : Bus) : List Event := b.events.filter Event.isToken

/-- Tokens that do not belong to waiting for the clock line: clock samples and poll delays, whose number
the environment decides (spec/41_protocol_primitives.md R80), are left out. -/
def Event.isCoarse : Event → Bool
  | .latchOut _ _ => false
  | .low _ => true
  | .floated _ => true
  | .sampled .sda _ => true
  | .sampled .scl _ => false
  | .half => true
  | .poll => false
  | .stabilize => true

/-- The trace without the clock-stretch polls. -/
def Bus.coarse (b : Bus) : List Event := b.events.filter Event.isCoarse

/-- The trace of a clock release that saw the line low `j` times and then high (R80, corner case (b)). -/
def stretchHonoured (j : Nat) : List Event :=
  [.floated .scl] ++ (List.replicate j [.sampled .scl false, .poll]).flatten ++ [.sampled .scl true]

/-- The trace of a clock release that saw the line low at all `k` polls (R80, corner case (c)). -/
def stretchExpired (k : Nat) : List Event :=
  [.floated .scl] ++ (List.replicate k [.sampled .scl false, .poll]).flatten

/-! ### Cells and frames, without the clock-stretch polls -/

/-- `Start` (spec/41_protocol_primitives.md R81). -/
def startCell : List Event :=
  [.floated .sda, .half, .floated .scl, .half, .low .sda, .half, .low .scl, .half]

/-- `Stop` (R82). -/
def stopCell : List Event := [.low .sda, .half, .floated .scl, .half, .floated .sda, .half]

/-- The data line set to a bit value (R83): 1 releases it, 0 drives it low. -/
def dataEvent (v : Level) : Event := if v then .floated .sda else .low .sda

/-- `WriteBit(v)` (R83). -/
def writeCell (v : Level) : List Event :=
  [dataEvent v, .half, .floated .scl, .half, .low .scl, .half]

/-- `ReadBit` returning `v` (R84). -/
def readCell (v : Level) : List Event :=
  [.floated .sda, .half, .floated .scl, .half, .sampled .sda v, .low .scl, .half]

/-- The bits of a byte in the order of transfer, most significant first (spec/20_memory.md R34). -/
def msbFirst (v : Byte) : List Level := [v[7], v[6], v[5], v[4], v[3], v[2], v[1], v[0]]

/-- The frame of a byte the engine sends, with the level sampled in the ninth cell (spec/30_encoding.md R51). -/
def sentByte (ninth : Level) (v : Byte) : List Event :=
  (msbFirst v).flatMap writeCell ++ readCell ninth

/-- The frame of a byte the engine receives, with the level it drives in the ninth cell (R51). -/
def receivedByte (ninth : Level) (v : Byte) : List Event :=
  (msbFirst v).flatMap readCell ++ writeCell ninth

/-- A byte of the receive buffer by its index (0 outside the buffer). -/
def State.rxCell (s : State) (i : Nat) : Byte := s.rxBuf[i]?.getD 0

/-- A byte of the transmit buffer by its index (0 outside the buffer). -/
def State.txCell (s : State) (i : Nat) : Byte := s.txBuf[i]?.getD 0

/-- The frames of `n` received bytes: every byte but the last acknowledged (spec/30_encoding.md R55). -/
def receivedFrames (n : Nat) (t : State) : List Event :=
  (List.range n).flatMap fun i => receivedByte (decide (i + 1 = n)) (t.rxCell i)

/-- Pin events in which every release of the clock line is one `SclReleaseWait` with bound `k`, and in which
the clock line is sampled and polled nowhere else (spec/41_protocol_primitives.md R80, R89). -/
def ClockWaits (k : Nat) (es : List Event) : Prop :=
  ∃ pieces : List (List Event), es = pieces.flatten ∧ ∀ p ∈ pieces,
    (∃ j < k, p = stretchHonoured j) ∨ p = stretchExpired k ∨
      ∃ e, p = [e] ∧ e ≠ .floated .scl ∧ e ≠ .poll ∧ ∀ v, e ≠ .sampled .scl v

/-- Every line transition is followed by exactly one half-bit delay, nothing else is
(spec/41_protocol_primitives.md R87). -/
def delaysPlaced : List Event → Bool
  | [] => true
  | .low _ :: .half :: rest => delaysPlaced rest
  | .floated _ :: .half :: rest => delaysPlaced rest
  | .sampled _ _ :: rest => delaysPlaced rest
  | _ => false

/-! ### What a bus monitor sees -/

/-- What a monitor on the two wires reports (spec/30_encoding.md R50 to R53). -/
inductive WireSymbol where
  | start
  | stop
  | bit (v : Level)
  deriving DecidableEq, Repr

/-- A monitor that reads the pin events as spec/95_test_vectors.md section 1 says. -/
structure Monitor where
  /-- The clock line is released and was seen high. -/
  clockHigh : Bool
  /-- The engine drives the data line low. -/
  dataDriven : Bool
  /-- In this clock pulse the engine saw the data line low. -/
  sawLow : Bool
  /-- In this clock pulse the data line changed: it was START or STOP, no bit. -/
  edge : Bool
  /-- What was reported, oldest first. -/
  seen : List WireSymbol
  deriving DecidableEq, Repr

/-- The monitor on an idle bus: both lines released and high. -/
def Monitor.idle : Monitor := ⟨true, false, false, false, []⟩

/-- The monitor sees one pin event. A falling data edge while the clock is high is START, a rising one is
STOP; a clock pulse without such an edge is a bit, 0 if the data line was low (R53). -/
def Monitor.see (m : Monitor) : Event → Monitor
  | .low .sda =>
    if m.clockHigh && !m.dataDriven then
      { m with dataDriven := true, edge := true, seen := m.seen ++ [.start] }
    else { m with dataDriven := true }
  | .floated .sda =>
    if m.clockHigh && m.dataDriven then
      { m with dataDriven := false, edge := true, seen := m.seen ++ [.stop] }
    else { m with dataDriven := false }
  | .low .scl =>
    if m.clockHigh && !m.edge then
      { m with clockHigh := false, seen := m.seen ++ [.bit (!(m.dataDriven || m.sawLow))] }
    else { m with clockHigh := false }
  | .sampled .scl true => { m with clockHigh := true, sawLow := false, edge := false }
  | .sampled .scl false => m
  | .sampled .sda false => { m with sawLow := true }
  | .sampled .sda true => m
  | .floated .scl => m
  | .latchOut _ _ => m
  | .half => m
  | .poll => m
  | .stabilize => m

/-- What the monitor reports of a list of pin events that starts on an idle bus. -/
def wireSymbols (es : List Event) : List WireSymbol := (es.foldl Monitor.see Monitor.idle).seen

/-- A byte frame on the wire: eight bits, most significant first, and the acknowledge bit (R51). -/
def wireByte (ninth : Level) (v : Byte) : List WireSymbol :=
  (msbFirst v).map WireSymbol.bit ++ [.bit ninth]

/-- The events a step added to the trace. -/
def newEvents (s t : State) : List Event := t.bus.events.drop s.bus.events.length

/-- An operation that led from `s` to `t` performed `es`, clock-stretch polls left out, and every clock
release among them waited for the line (R80). -/
def Performs (s t : State) (es : List Event) : Prop :=
  t.bus.coarse = s.bus.coarse ++ es ∧ ClockWaits s.params.stretchMaxPolls (newEvents s t)

/-! ### PHASE along a trace -/

/-- The phases along the trace entries a step added. -/
def newPhases (s t : State) : List Phase := (t.bus.trace.drop s.bus.trace.length).map Entry.phase

/-- Adjacent repetitions collapsed: the sequence of states the sequencer went through. -/
def phaseRuns : List Phase → List Phase
  | [] => []
  | [x] => [x]
  | x :: y :: rest => if x = y then phaseRuns (y :: rest) else x :: phaseRuns (y :: rest)

/-- The sequence of spec/10_state.md R15 for a transaction with `k` data bytes. -/
def transactionPhases (k : Nat) : List Phase :=
  [.start, .addressByte, .ackOrNack] ++ (List.replicate k [.dataByte, .ackOrNack]).flatten ++ [.stop]

/-! ### Frames and invariants -/

/-- Nothing changed but the line side and the response: every register, both buffers and the parameters are
as before, and no further word was taken. -/
def OnlyBus (s t : State) : Prop := t = { s with bus := t.bus, response := t.response }

/-- On the line side nothing of line `l` changed: its pin and its answers. -/
def LineUntouched (l : Line) (b c : Bus) : Prop := c.pin l = b.pin l ∧ c.env l = b.env l

/-- Both pins released and the sequencer idle: what a transaction and `BEGIN` leave
(spec/10_state.md R23 (c), (d), (e)). -/
def Idle (b : Bus) : Prop :=
  b.phase = .idle ∧ b.sda.mode = .inPullup ∧ b.scl.mode = .inPullup

/-- The invariant every step keeps: R23 (b), well-formed parameters (spec/00_scope.md R4), and no pin left
in the transient of `DriveLow` (spec/10_state.md R21). R23 (a) is the type of the lengths. -/
def Inv (s : State) : Prop :=
  s.rxCur.val ≤ s.rxLen.val ∧ s.params.wellFormed = true ∧
    s.bus.sda.mode ≠ .outLatch ∧ s.bus.scl.mode ≠ .outLatch

/-- Only the host issues words: no harness injects any (spec/30_encoding.md R58). -/
def HostOnly (s : State) : Prop := ∀ r ∈ s.incoming, r.port = .host

/-- Two states of an engine that may differ in everything about the clock line: its pin, its answers, the
stretch bound, the output latches, the trace; they agree in the registers, the buffers, the data pin and the
answers on the data line. -/
structure SameButClock (s t : State) : Prop where
  addr : s.addr = t.addr
  txLen : s.txLen = t.txLen
  rxLen : s.rxLen = t.rxLen
  rxCur : s.rxCur = t.rxCur
  txActive : s.txActive = t.txActive
  txBuf : s.txBuf = t.txBuf
  rxBuf : s.rxBuf = t.rxBuf
  records : s.params.rfRecordsAddr = t.params.rfRecordsAddr
  sdaPin : s.params.sdaPin = t.params.sdaPin
  envSda : s.bus.envSda = t.bus.envSda

/-- Two states that may differ only in stale buffer cells: `TXBUF[i]` for `i ≥ TXLEN` and `RXBUF[i]` for
`i ≥ RXLEN` (spec/10_state.md R24 (2)). -/
structure SameButStale (s t : State) : Prop where
  rest : t = { s with txBuf := t.txBuf, rxBuf := t.rxBuf }
  queued : t.queued = s.queued
  received : t.rxBuf.toList.take t.rxLen.val = s.rxBuf.toList.take s.rxLen.val

/-- An event in which the engine drives a line high. -/
def Event.drivesHigh : Event → Bool
  | .latchOut _ v => v
  | .low _ => false
  | .floated _ => false
  | .sampled _ _ => false
  | .half => false
  | .poll => false
  | .stabilize => false

end Sys2Proof.Machine
end

