-- ==== Sys2Proof/Certificates/Slice0/Obligations.lean ====
section
/-! DEFINITION. The statements for the provers. Each docstring names the rule of spec/ it formalises. -/

open Sys2Proof Sys2Proof.Machine

/-! ### Encoding -/

/-- Words written out from spec/30_encoding.md R60 and spec/95_test_vectors.md section 3.5. -/
def Obligations.SpecWordsDecode : Prop :=
  decode 0x01000000 = .ok .beginBus ∧ decode 0x02000200 = .ok (.beginTx 0x02) ∧
    decode 0x02008200 = .ok (.beginTx 0x02) ∧ decode 0x03000045 = .ok (.write 0x45) ∧
    decode 0x05000204 = .ok (.requestFrom 0x02 4) ∧ decode 0x11000001 = .ok (.release .scl) ∧
    decode 0x23000001 = .ok (.writeBit true) ∧ decode 0x26000000 = .ok (.readByte false) ∧
    decode 0x00000000 = .error .unknownOp ∧ decode 0x04000001 = .error .operandNotZero ∧
    decode 0x03010045 = .error .reservedNotZero ∧ decode 0x23000002 = .error .operandNotZero

/-- Decoding the encoding of any operation gives it back, with every operand at every value. -/
def Obligations.DecodeOfEncode : Prop := ∀ i : Instr, decode (encode i) = .ok i

/-- Encoding a decoded word gives the word back but for the ignored bit `A[7]` of an address operand
(spec/30_encoding.md R59). -/
def Obligations.EncodeOfDecode : Prop :=
  ∀ (w : CmdWord) (i : Instr), decode w = .ok i →
    encode i = w &&& (match i with
      | .beginTx _ => 0xFFFF7FFF
      | .requestFrom _ _ => 0xFFFF7FFF
      | _ => 0xFFFFFFFF)

/-- spec/30_encoding.md R61: a word is decoded exactly when a row's match and mask select it, to that row's
operation, and no two rows overlap. -/
def Obligations.DecodeFollowsMatchAndMask : Prop :=
  (∀ (w : CmdWord) (i : Instr), decode w = .ok i →
    ∃ r ∈ opcodeRows, r.selectedBy w = true ∧ r.mnemonic = i.mnemonic) ∧
  (∀ (w : CmdWord), ∀ r ∈ opcodeRows, r.selectedBy w = true →
    ∃ i, decode w = .ok i ∧ i.mnemonic = r.mnemonic) ∧
  (∀ (w : CmdWord), ∀ r ∈ opcodeRows, ∀ q ∈ opcodeRows,
    r.selectedBy w = true → q.selectedBy w = true → r = q)

/-! ### The step -/

/-- A step executes the operation the next word decodes to, in the state with that word taken. -/
def Obligations.StepExecutesNextWord : Prop :=
  ∀ (s : State) (r : Request) (rest : List Request) (i : Instr), s.incoming = r :: rest →
    decode r.word = .ok i → i.wellFormedAt r.port = true → step s = exec i { s with incoming := rest }

/-- spec/30_encoding.md R63: a word that no row matches, or a `UOP` word at the host port, is answered
`ILLEGAL`; nothing else changes but that the word is taken. That this is a step which answers a next state, and
that the word leaves a queue, is the model's reading (log 4, log 2). -/
def Obligations.IllegalWordOnlyAnswered : Prop :=
  ∀ (s : State) (r : Request) (rest : List Request), s.incoming = r :: rest →
    ((∀ row ∈ opcodeRows, row.selectedBy r.word = false) ∨
      (r.port = .host ∧ ∃ row ∈ uopRows, row.selectedBy r.word = true)) →
    step s = .next { s with incoming := rest, response := some .illegal }

/-- spec/10_state.md R14: with no command issued the engine does nothing. -/
def Obligations.RestWithoutCommand : Prop := ∀ s : State, s.incoming = [] → step s = .next s

/-- Every step answers a next state (spec/60_exceptions.md R125: no state from which the next command is not
accepted) and words are taken one at a time, in order (spec/20_memory.md R41, spec/42_transaction_api.md R107).
The model's choices are that the words wait in a queue and an idle step answers the same state (log 2), that the
parameters of R4 are unchanged state (log 9), and that the trace is state that is only appended to (log 11). -/
def Obligations.EveryStepTakesOneWord : Prop :=
  ∀ s : State, ∃ t, step s = .next t ∧ t.incoming = s.incoming.tail ∧ t.params = s.params ∧
    s.bus.trace <+: t.bus.trace

/-! ### Line primitives -/

/-- spec/40_line_primitives.md R70. That the level under `any` is a free value of the pin and of the number
of the draw, a new one at each call, is the model's form of `drawn anew at each call` (log 7). -/
def Obligations.DriveLowPullsLine : Prop :=
  ∀ (l : Line) (s : State), encode (.driveLow l) = (if l = .sda then 0x10000000 else 0x10000001) ∧
    ∃ t v, exec (.driveLow l) s = .next t ∧ OnlyBus s t ∧
    t.response = some .noValue ∧ (t.bus.pin l).mode = .outLow ∧
    (∀ moment envLow, t.bus.level s.params l moment envLow = false) ∧
    t.bus.trace = s.bus.trace ++ [⟨s.bus.phase, .latchOut l v⟩, ⟨s.bus.phase, .low l⟩] ∧
    (s.params.outLatch = .low → v = false ∧ t.bus.draws = s.bus.draws) ∧
    (s.params.outLatch = .high → v = true ∧ t.bus.draws = s.bus.draws) ∧
    (s.params.outLatch = .any →
      v = Config.freeLatch (s.params.pinOf l) s.bus.draws ∧ t.bus.draws = s.bus.draws + 1) ∧
    LineUntouched l.other s.bus t.bus ∧ t.bus.env l = s.bus.env l ∧ t.bus.phase = s.bus.phase ∧
    t.bus.stretchTimedOut = s.bus.stretchTimedOut

/-- spec/40_line_primitives.md R71. -/
def Obligations.ReleaseFloatsLine : Prop :=
  ∀ (l : Line) (s : State), encode (.release l) = (if l = .sda then 0x11000000 else 0x11000001) ∧
    ∃ t, exec (.release l) s = .next t ∧ OnlyBus s t ∧
    t.response = some .noValue ∧ (t.bus.pin l).mode = .inPullup ∧
    (∀ moment envLow, t.bus.level s.params l moment envLow = !envLow) ∧
    t.bus.trace = s.bus.trace ++ [⟨s.bus.phase, .floated l⟩] ∧
    LineUntouched l.other s.bus t.bus ∧ t.bus.env l = s.bus.env l ∧ t.bus.phase = s.bus.phase ∧
    t.bus.stretchTimedOut = s.bus.stretchTimedOut ∧ t.bus.draws = s.bus.draws

/-- spec/40_line_primitives.md R72: the line is released first, then the level the environment leaves it
at is read. -/
def Obligations.SampleReleasesAndReads : Prop :=
  ∀ (l : Line) (s : State), encode (.sample l) = (if l = .sda then 0x12000000 else 0x12000001) ∧
    ∃ t v, exec (.sample l) s = .next t ∧ OnlyBus s t ∧
    t.response = some (.level v) ∧ v = ((s.bus.env l).next (s.params.pinOf l)).1 ∧
    (t.bus.pin l).mode = .inPullup ∧ (∀ moment, v = t.bus.level s.params l moment (!v)) ∧
    t.bus.trace = s.bus.trace ++ [⟨s.bus.phase, .sampled l v⟩] ∧
    t.bus.env l = ((s.bus.env l).next (s.params.pinOf l)).2 ∧
    LineUntouched l.other s.bus t.bus ∧ t.bus.phase = s.bus.phase ∧
    t.bus.stretchTimedOut = s.bus.stretchTimedOut ∧ t.bus.draws = s.bus.draws

/-- spec/40_line_primitives.md R73, R74, R75: a delay reads and writes no state; it is a mark in the trace. -/
def Obligations.DelaysWriteNoState : Prop :=
  ∀ (s : State) (i : Instr) (e : Event) (w : CmdWord),
    ((i = .halfDelay ∧ e = .half ∧ w = 0x13000000) ∨ (i = .pollDelay ∧ e = .poll ∧ w = 0x14000000) ∨
      (i = .stabilizeWait ∧ e = .stabilize ∧ w = 0x15000000)) →
    encode i = w ∧ exec i s = .next { s with
      bus := { s.bus with trace := s.bus.trace ++ [⟨s.bus.phase, e⟩] }, response := some .noValue }

/-! ### Protocol primitives -/

/-- spec/41_protocol_primitives.md R80: a clock release either sees the line high within the bound or goes
on after exactly the bound's number of polls; nothing but the ghost flag tells the two apart. -/
def Obligations.SclReleaseWaitIsBounded : Prop :=
  ∀ s : State, encode .sclReleaseWait = 0x20000000 ∧ ∃ t, exec .sclReleaseWait s = .next t ∧
    OnlyBus s t ∧ t.response = some .noValue ∧
    t.bus.scl.mode = .inPullup ∧ LineUntouched .sda s.bus t.bus ∧ t.bus.phase = s.bus.phase ∧
    t.bus.draws = s.bus.draws ∧
    ((∃ j < s.params.stretchMaxPolls, t.bus.events = s.bus.events ++ stretchHonoured j ∧
        t.bus.stretchTimedOut = s.bus.stretchTimedOut) ∨
      (t.bus.events = s.bus.events ++ stretchExpired s.params.stretchMaxPolls ∧
        t.bus.stretchTimedOut = true))

/-- spec/41_protocol_primitives.md R80, corner cases (a), (b), (c): which of the two happens is decided by
the environment's answers on the clock line. The flag `stretchTimedOut` is the model's ghost flag, which R123
allows (log 12); the engine stores the timeout nowhere. -/
def Obligations.SclReleaseWaitFollowsAnswers : Prop :=
  ∀ (s : State) (rest : List Level) (n : Nat),
    (∀ j < s.params.stretchMaxPolls,
      s.bus.envScl = ⟨List.replicate j false ++ true :: rest, n⟩ →
      ∃ t, exec .sclReleaseWait s = .next t ∧ t.bus.envScl = ⟨rest, n⟩ ∧
        t.bus.events = s.bus.events ++ stretchHonoured j ∧
        t.bus.stretchTimedOut = s.bus.stretchTimedOut) ∧
    (s.bus.envScl = ⟨List.replicate s.params.stretchMaxPolls false ++ rest, n⟩ →
      ∃ t, exec .sclReleaseWait s = .next t ∧ t.bus.envScl = ⟨rest, n⟩ ∧
        t.bus.events = s.bus.events ++ stretchExpired s.params.stretchMaxPolls ∧
        t.bus.stretchTimedOut = true)

/-- spec/41_protocol_primitives.md R81. -/
def Obligations.StartDrivesBothLow : Prop :=
  ∀ s : State, encode .start = 0x21000000 ∧ ∃ t, exec .start s = .next t ∧ OnlyBus s t ∧
    t.response = some .noValue ∧ t.bus.sda.mode = .outLow ∧ t.bus.scl.mode = .outLow ∧
    t.bus.phase = .start ∧ phaseRuns (newPhases s t) = [.start] ∧ t.bus.envSda = s.bus.envSda ∧
    Performs s t startCell

/-- spec/41_protocol_primitives.md R82. -/
def Obligations.StopReleasesBoth : Prop :=
  ∀ s : State, encode .stop = 0x22000000 ∧ ∃ t, exec .stop s = .next t ∧ OnlyBus s t ∧
    t.response = some .noValue ∧ Idle t.bus ∧ phaseRuns (newPhases s t) = [.stop] ∧
    t.bus.envSda = s.bus.envSda ∧ Performs s t stopCell

/-- spec/41_protocol_primitives.md R83. -/
def Obligations.WriteBitSendsBit : Prop :=
  ∀ (v : Level) (s : State), encode (.writeBit v) = (if v then 0x23000001 else 0x23000000) ∧
    ∃ t, exec (.writeBit v) s = .next t ∧ OnlyBus s t ∧
    t.response = some .noValue ∧ t.bus.scl.mode = .outLow ∧
    t.bus.sda.mode = (if v then .inPullup else .outLow) ∧ t.bus.phase = s.bus.phase ∧
    t.bus.envSda = s.bus.envSda ∧ Performs s t (writeCell v)

/-- spec/41_protocol_primitives.md R84. -/
def Obligations.ReadBitReturnsSample : Prop :=
  ∀ s : State, encode .readBit = 0x24000000 ∧ ∃ t v, exec .readBit s = .next t ∧ OnlyBus s t ∧
    t.response = some (.bit v) ∧ v = (s.bus.envSda.next s.params.sdaPin).1 ∧
    t.bus.envSda = (s.bus.envSda.next s.params.sdaPin).2 ∧ t.bus.sda.mode = .inPullup ∧
    t.bus.scl.mode = .outLow ∧ t.bus.phase = s.bus.phase ∧
    Performs s t (readCell v)

/-- spec/41_protocol_primitives.md R85: eight bits, most significant first, then the acknowledge bit; true
when it is low. -/
def Obligations.WriteByteReportsAck : Prop :=
  ∀ (v : Byte) (s : State), encode (.writeByte v) = (0x25000000 : CmdWord) ||| v.setWidth 32 ∧
    ∃ t ninth, exec (.writeByte v) s = .next t ∧ OnlyBus s t ∧
    t.response = some (.acked (!ninth)) ∧ ninth = (s.bus.envSda.next s.params.sdaPin).1 ∧
    t.bus.envSda = (s.bus.envSda.next s.params.sdaPin).2 ∧ t.bus.sda.mode = .inPullup ∧
    t.bus.scl.mode = .outLow ∧ t.bus.phase = .ackOrNack ∧
    (∃ role, phaseRuns (newPhases s t) = [rolePhase role, .ackOrNack]) ∧
    Performs s t (sentByte ninth v)

/-- spec/41_protocol_primitives.md R86: eight bits read, most significant first, then the acknowledge bit
driven: low to acknowledge, released not to. The cells of the trace carry the samples, so the first clause
ties the byte to them; the second gives the byte for written answers. -/
def Obligations.ReadByteAssemblesBits : Prop :=
  ∀ (ack : Bool) (s : State), encode (.readByte ack) = (if ack then 0x26000001 else 0x26000000) ∧
    ∃ t v, exec (.readByte ack) s = .next t ∧ OnlyBus s t ∧
    t.response = some (.byte v) ∧ Performs s t (receivedByte (!ack) v) ∧
    (∀ (u : Byte) (rest : List Level) (n : Nat), s.bus.envSda = ⟨msbFirst u ++ rest, n⟩ →
      v = u ∧ t.bus.envSda = ⟨rest, n⟩) ∧
    t.bus.sda.mode = (if ack then .outLow else .inPullup) ∧ t.bus.scl.mode = .outLow ∧
    t.bus.phase = .ackOrNack ∧ phaseRuns (newPhases s t) = [.dataByte, .ackOrNack]

/-- spec/41_protocol_primitives.md R87: in the protocol primitives, and in the transactions built from them,
every `DriveLow`, `Release` and `SclReleaseWait` is followed by exactly one half-bit delay, a `Sample` by
none, and no other delay exists. -/
def Obligations.HalfDelayAfterEveryTransition : Prop :=
  ∀ (i : Instr) (s : State),
    (i = .start ∨ i = .stop ∨ (∃ v, i = .writeBit v) ∨ i = .readBit ∨ (∃ v, i = .writeByte v) ∨
      (∃ ack, i = .readByte ack) ∨ i = .endTx ∨ (∃ a count, i = .requestFrom a count)) →
    ∃ t es, exec i s = .next t ∧ Performs s t es ∧ delaysPlaced es = true

/-- spec/41_protocol_primitives.md R89: how often the data line is sampled. -/
def Obligations.DataLineSampleCounts : Prop :=
  ∀ (i : Instr) (k : Nat) (s : State),
    ((i = .start ∧ k = 0) ∨ (i = .stop ∧ k = 0) ∨ ((∃ v, i = .writeBit v) ∧ k = 0) ∨
      (i = .readBit ∧ k = 1) ∨ ((∃ v, i = .writeByte v) ∧ k = 1) ∨
      ((∃ ack, i = .readByte ack) ∧ k = 8)) →
    ∃ t es, exec i s = .next t ∧ t.bus.coarse = s.bus.coarse ++ es ∧
      es.countP (fun e => e = .sampled .sda true ∨ e = .sampled .sda false) = k

/-- spec/41_protocol_primitives.md R90: whatever the clock line does, and whatever the stretch bound and the
output latch are, the same answers on the data line give the same pin events but for the clock-stretch polls,
and the same response, registers and buffers. -/
def Obligations.StretchingNeverShows : Prop :=
  ∀ (i : Instr) (s t : State), i ≠ .sample .scl → SameButClock s t →
    ∃ s' t' es, exec i s = .next s' ∧ exec i t = .next t' ∧ s'.response = t'.response ∧
      SameButClock s' t' ∧ s'.bus.coarse = s.bus.coarse ++ es ∧ t'.bus.coarse = t.bus.coarse ++ es

/-- spec/40_line_primitives.md and spec/41_protocol_primitives.md, opening paragraphs: a micro-operation
reads and writes no register and no buffer. -/
def Obligations.MicroOperationsUseOnlyBus : Prop :=
  ∀ (i : Instr) (s t : State), i.isApi = false → t.bus = s.bus → t.params = s.params →
    ∃ s' t', exec i s = .next s' ∧ exec i t = .next t' ∧ OnlyBus s s' ∧ OnlyBus t t' ∧
      t'.bus = s'.bus ∧ t'.response = s'.response

/-! ### The transaction API -/

/-- spec/42_transaction_api.md R100, spec/10_state.md R26. -/
def Obligations.BeginReleasesLines : Prop :=
  ∀ s : State, encode .beginBus = 0x01000000 ∧ ∃ t, exec .beginBus s = .next t ∧ OnlyBus s t ∧
    t.response = some .noValue ∧
    t.bus.sda.mode = .inPullup ∧ t.bus.scl.mode = .inPullup ∧ t.bus.phase = s.bus.phase ∧
    t.bus.envSda = s.bus.envSda ∧ t.bus.envScl = s.bus.envScl ∧
    t.bus.trace = s.bus.trace ++ [⟨s.bus.phase, .floated .sda⟩, ⟨s.bus.phase, .floated .scl⟩,
      ⟨s.bus.phase, .stabilize⟩] ∧
    ∃ u, exec .beginBus t = .next u ∧ u = { t with bus := { t.bus with trace := u.bus.trace } }

/-- spec/42_transaction_api.md R101. -/
def Obligations.BeginTxOpensTransmission : Prop :=
  ∀ (a : Addr) (s : State), encode (.beginTx a) = (0x02000000 : CmdWord) ||| (a.setWidth 32 <<< 8) ∧
    exec (.beginTx a) s = .next { s with txLen := 0, addr := a, txActive := true, response := some .noValue }

/-- spec/42_transaction_api.md R102, both branches. -/
def Obligations.WriteAppendsOrDrops : Prop :=
  ∀ (b : Byte) (s : State), encode (.write b) = (0x03000000 : CmdWord) ||| b.setWidth 32 ∧
    (s.txLen.val < 32 → ∃ t, exec (.write b) s = .next t ∧ t.response = some (.accepted true) ∧
      t.txLen.val = s.txLen.val + 1 ∧ t.txCell s.txLen.val = b ∧
      (∀ j, j ≠ s.txLen.val → t.txCell j = s.txCell j) ∧ t.queued = s.queued ++ [b] ∧
      t = { s with txLen := t.txLen, txBuf := t.txBuf, response := t.response }) ∧
    (s.txLen.val = 32 → exec (.write b) s = .next { s with response := some (.accepted false) })

/-- spec/42_transaction_api.md R103 and spec/30_encoding.md R54: what `END_TX` writes, on every path, and
what it puts on the pins for each status. -/
def Obligations.EndTxSendsQueuedBytes : Prop :=
  ∀ s : State, encode .endTx = 0x04000000 ∧ ∃ t st, exec .endTx s = .next t ∧
    t = { s with txLen := 0, txActive := false, bus := t.bus, response := some (.status st) } ∧
    Idle t.bus ∧
    match st with
    | .ok => Performs s t (startCell ++ sentByte false (addrByte s.addr .write) ++
        s.queued.flatMap (sentByte false) ++ stopCell)
    | .addrNack => Performs s t (startCell ++ sentByte true (addrByte s.addr .write) ++ stopCell)
    | .dataNack => ∃ before v after, s.queued = before ++ v :: after ∧
        Performs s t (startCell ++ sentByte false (addrByte s.addr .write) ++
          before.flatMap (sentByte false) ++ sentByte true v ++ stopCell)

/-- spec/60_exceptions.md R120, R127, R128: the status is the first thing the acknowledge bits report, and
no answer after the deciding one is consumed. -/
def Obligations.EndTxStatusFollowsAcks : Prop :=
  ∀ (s : State) (rest : List Level) (n : Nat),
    (s.bus.envSda = ⟨true :: rest, n⟩ →
      ∃ t, exec .endTx s = .next t ∧ t.response = some (.status .addrNack) ∧
        t.bus.envSda = ⟨rest, n⟩) ∧
    (∀ j < s.txLen.val, s.bus.envSda = ⟨List.replicate (j + 1) false ++ true :: rest, n⟩ →
      ∃ t, exec .endTx s = .next t ∧ t.response = some (.status .dataNack) ∧
        t.bus.envSda = ⟨rest, n⟩) ∧
    (s.bus.envSda = ⟨List.replicate (s.txLen.val + 1) false ++ rest, n⟩ →
      ∃ t, exec .endTx s = .next t ∧ t.response = some (.status .ok) ∧ t.bus.envSda = ⟨rest, n⟩)

/-- spec/30_encoding.md R50 to R54: from both lines released, and when no clock stretch times out, the pin
events read as START, the address byte, the data bytes in order, each with its acknowledge bit, and STOP. The
monitor that reads them is the model's (log 11); as spec/95_test_vectors.md section 1, R82 and conflict C6 say,
its reading is what the wire shows only when every released line rises, the data line too. -/
def Obligations.EndTxOnTheWire : Prop :=
  ∀ s : State, Idle s.bus → ∃ t st, exec .endTx s = .next t ∧ t.response = some (.status st) ∧
    (t.bus.stretchTimedOut = false →
      match st with
      | .ok => wireSymbols (newEvents s t) = [.start] ++ wireByte false (addrByte s.addr .write) ++
          s.queued.flatMap (wireByte false) ++ [.stop]
      | .addrNack => wireSymbols (newEvents s t) =
          [.start] ++ wireByte true (addrByte s.addr .write) ++ [.stop]
      | .dataNack => ∃ before v after, s.queued = before ++ v :: after ∧
          wireSymbols (newEvents s t) = [.start] ++ wireByte false (addrByte s.addr .write) ++
            before.flatMap (wireByte false) ++ wireByte true v ++ [.stop])

/-- spec/42_transaction_api.md R104 and spec/30_encoding.md R55: what `REQUEST_FROM` writes and what it puts
on the pins, when the address byte is acknowledged and when it is not. -/
def Obligations.RequestFromFillsBuffer : Prop :=
  ∀ (a : Addr) (count : Byte) (s : State),
    encode (.requestFrom a count) = (0x05000000 : CmdWord) ||| (a.setWidth 32 <<< 8) ||| count.setWidth 32 ∧
    ∃ t, exec (.requestFrom a count) s = .next t ∧
    t = { s with addr := if s.params.rfRecordsAddr then a else s.addr, rxBuf := t.rxBuf,
                 rxLen := t.rxLen, rxCur := 0, bus := t.bus, response := some (.received t.rxLen) } ∧
    Idle t.bus ∧
    (if (s.bus.envSda.next s.params.sdaPin).1 then
      t.rxLen.val = 0 ∧ t.rxBuf = s.rxBuf ∧
      Performs s t (startCell ++ sentByte true (addrByte a .read) ++ stopCell)
    else
      t.rxLen.val = min count.toNat 32 ∧ (∀ j, t.rxLen.val ≤ j → t.rxCell j = s.rxCell j) ∧
      Performs s t (startCell ++ sentByte false (addrByte a .read) ++
        receivedFrames t.rxLen.val t ++ stopCell))

/-- spec/42_transaction_api.md R104, spec/20_memory.md R33, R34: with the address acknowledged and the bits
of some bytes as the answers, exactly these bytes are received, in order of arrival. -/
def Obligations.RequestFromReceivesBytes : Prop :=
  ∀ (a : Addr) (count : Byte) (s : State) (bytes : List Byte) (rest : List Level) (n : Nat),
    bytes.length = min count.toNat 32 →
    s.bus.envSda = ⟨false :: (bytes.flatMap msbFirst ++ rest), n⟩ →
    ∃ t, exec (.requestFrom a count) s = .next t ∧ t.unread = bytes ∧ t.bus.envSda = ⟨rest, n⟩

/-- spec/30_encoding.md R50 to R53, R55: from both lines released, and when no clock stretch times out, the pin
events read as START, the address byte, the received bytes, all but the last acknowledged, and STOP. The monitor
that reads them is the model's (log 11); as spec/95_test_vectors.md section 1, R82 and conflict C6 say, its
reading is what the wire shows only when every released line rises, the data line too. -/
def Obligations.RequestFromOnTheWire : Prop :=
  ∀ (a : Addr) (count : Byte) (s : State), Idle s.bus →
    ∃ t, exec (.requestFrom a count) s = .next t ∧
      (t.bus.stretchTimedOut = false →
        wireSymbols (newEvents s t) =
          if (s.bus.envSda.next s.params.sdaPin).1 then
            [.start] ++ wireByte true (addrByte a .read) ++ [.stop]
          else
            [.start] ++ wireByte false (addrByte a .read) ++
              ((List.range t.rxLen.val).flatMap fun i =>
                wireByte (decide (i + 1 = t.rxLen.val)) (t.rxCell i)) ++ [.stop])

/-- spec/42_transaction_api.md R105, both branches. -/
def Obligations.ReadTakesNextByte : Prop :=
  ∀ s : State, encode .read = 0x06000000 ∧
    (s.rxCur.val < s.rxLen.val → ∃ t, exec .read s = .next t ∧
      t.response = some (.byte (s.rxCell s.rxCur.val)) ∧ t.rxCur.val = s.rxCur.val + 1 ∧
      s.unread = s.rxCell s.rxCur.val :: t.unread ∧
      t = { s with rxCur := t.rxCur, response := t.response }) ∧
    (s.rxLen.val ≤ s.rxCur.val → exec .read s = .next { s with response := some (.byte 0) })

/-- spec/42_transaction_api.md R106. -/
def Obligations.AvailableCountsUnread : Prop :=
  ∀ s : State, encode .available = 0x07000000 ∧
    ∃ n : Fin 33, exec .available s = .next { s with response := some (.count n) } ∧
    n.val = s.rxLen.val - s.rxCur.val ∧ n.val = s.unread.length

/-! ### Flags and phases -/

/-- spec/10_state.md R18: no response and no pin event depends on `TXACTIVE`. -/
def Obligations.TxActiveGatesNothing : Prop :=
  ∀ (i : Instr) (s : State) (b : Bool), ∃ t t', exec i s = .next t ∧
    exec i { s with txActive := b } = .next t' ∧ t'.response = t.response ∧ t'.bus = t.bus ∧
    t = { t' with txActive := t.txActive }

/-- spec/10_state.md R16: no response, pin event or register depends on `PHASE`. -/
def Obligations.PhaseIsReadByNothing : Prop :=
  ∀ (i : Instr) (s : State) (p : Phase), ∃ t t', exec i s = .next t ∧
    exec i { s with bus := s.bus.setPhase p } = .next t' ∧ t'.response = t.response ∧
    t'.bus.events = t.bus.events ∧ t'.bus.sda = t.bus.sda ∧ t'.bus.scl = t.bus.scl ∧
    t'.bus.envSda = t.bus.envSda ∧ t'.bus.envScl = t.bus.envScl ∧ t = { t' with bus := t.bus }

/-- spec/10_state.md R15, R17: along a transaction the phases follow
START, address byte, acknowledge, (data byte, acknowledge)*, STOP; every pin event happens in one of them,
and the transaction ends in IDLE. -/
def Obligations.TransactionPhaseSequence : Prop :=
  ∀ (i : Instr) (s : State), (i = .endTx ∨ ∃ a count, i = .requestFrom a count) →
    ∃ t k, exec i s = .next t ∧ t.bus.phase = .idle ∧
      phaseRuns (newPhases s t) = transactionPhases k ∧
      (∀ st, t.response = some (.status st) →
        (st = .ok → k = s.txLen.val) ∧ (st = .addrNack → k = 0) ∧
          (st = .dataNack → 1 ≤ k ∧ k ≤ s.txLen.val)) ∧
      (∀ n, t.response = some (.received n) → k = n.val)

/-! ### Invariants -/

/-- spec/10_state.md R23 (b), spec/00_scope.md R4, spec/10_state.md R21: every step keeps `Inv`. -/
def Obligations.StepKeepsInv : Prop := ∀ s t : State, Inv s → step s = .next t → Inv t

/-- The reset state has `Inv`. -/
def Obligations.ResetHasInv : Prop := Inv State.reset

/-- spec/10_state.md R23 (c), (d), (e): once both pins are released and the sequencer is idle, every step of
the host's own commands ends that way again. -/
def Obligations.HostCommandsKeepIdle : Prop :=
  ∀ s t : State, HostOnly s → Idle s.bus → step s = .next t → HostOnly t ∧ Idle t.bus

/-- spec/10_state.md R25, spec/70_reset_and_hazards.md R140, R141: the values the spec states for reset,
and that asserting the reset input performs no pin event. That it keeps the parameters and the record of earlier
pin events is the model's choice (log 18). -/
def Obligations.ResetValues : Prop :=
  State.reset.txLen = 0 ∧ State.reset.rxLen = 0 ∧ State.reset.rxCur = 0 ∧
    State.reset.txActive = false ∧ State.reset.bus.phase = .idle ∧
    State.reset.bus.sda.mode = .unconfigured ∧ State.reset.bus.scl.mode = .unconfigured ∧
    State.reset.bus.trace = [] ∧
    ∀ s : State, (applyReset s).txLen = 0 ∧ (applyReset s).rxLen = 0 ∧ (applyReset s).rxCur = 0 ∧
      (applyReset s).txActive = false ∧ (applyReset s).bus.phase = .idle ∧
      (applyReset s).bus.sda.mode = .unconfigured ∧ (applyReset s).bus.scl.mode = .unconfigured ∧
      (applyReset s).bus.trace = s.bus.trace ∧ (applyReset s).params = s.params

/-! ### Bounds, levels, isolation -/

/-- spec/70_reset_and_hazards.md R165: whatever the environment answers, one operation polls the clock line
at most 299 times the stretch bound. -/
def Obligations.PollsPerCommandBounded : Prop :=
  ∀ (i : Instr) (s : State), ∃ t, exec i s = .next t ∧
    (newEvents s t).count .poll ≤ 299 * s.params.stretchMaxPolls ∧
    (newEvents s t).count (.floated .scl) ≤ 299

/-- spec/70_reset_and_hazards.md R164: half-bit delays and clock releases of the transactions. -/
def Obligations.TransactionDelayCounts : Prop :=
  (∀ s : State, ∃ t st, exec .endTx s = .next t ∧ t.response = some (.status st) ∧
    (st = .ok → (newEvents s t).count .half = 7 + 27 * (s.txLen.val + 1) ∧
      (newEvents s t).count (.floated .scl) = 2 + 9 * (s.txLen.val + 1)) ∧
    (st = .addrNack → (newEvents s t).count .half = 34 ∧
      (newEvents s t).count (.floated .scl) = 11)) ∧
  (∀ (a : Addr) (count : Byte) (s : State), ∃ t, exec (.requestFrom a count) s = .next t ∧
    (newEvents s t).count .half = 7 + 27 * (t.rxLen.val + 1) ∧
    (newEvents s t).count (.floated .scl) = 2 + 9 * (t.rxLen.val + 1))

/-- spec/70_reset_and_hazards.md R164, the nominal times in microseconds: what the delays of an operation add
up to, beside the poll delays of clock stretching. -/
def Obligations.NominalDurations : Prop :=
  (∀ (i : Instr) (d : Nat) (s : State),
    ((i = .start ∧ d = 20) ∨ (i = .stop ∧ d = 15) ∨ ((∃ v, i = .writeBit v) ∧ d = 15) ∨
      (i = .readBit ∧ d = 15) ∨ ((∃ v, i = .writeByte v) ∧ d = 135) ∨
      ((∃ ack, i = .readByte ack) ∧ d = 135) ∨ (i = .beginBus ∧ d = 10000) ∨
      ((∃ a, i = .beginTx a) ∧ d = 0) ∨ ((∃ b, i = .write b) ∧ d = 0) ∨ (i = .read ∧ d = 0) ∨
      (i = .available ∧ d = 0)) →
    ∃ t, exec i s = .next t ∧
      nominalTime (newEvents s t) = d + nominalPoll * (newEvents s t).count .poll) ∧
  (∀ s : State, ∃ t st, exec .endTx s = .next t ∧ t.response = some (.status st) ∧
    (st = .ok → nominalTime (newEvents s t) =
      35 + 135 * (s.txLen.val + 1) + nominalPoll * (newEvents s t).count .poll) ∧
    (st = .addrNack → nominalTime (newEvents s t) =
      170 + nominalPoll * (newEvents s t).count .poll)) ∧
  (∀ (a : Addr) (count : Byte) (s : State), ∃ t, exec (.requestFrom a count) s = .next t ∧
    nominalTime (newEvents s t) =
      35 + 135 * (t.rxLen.val + 1) + nominalPoll * (newEvents s t).count .poll)

/-- spec/40_line_primitives.md R70, spec/70_reset_and_hazards.md R158: with `OUT_LATCH_ON_CONFIG = low` no
operation ever drives a line high. -/
def Obligations.LowLatchNeverDrivesHigh : Prop :=
  ∀ (i : Instr) (s : State), s.params.outLatch = .low →
    ∃ t, exec i s = .next t ∧ ∀ e ∈ newEvents s t, e.drivesHigh = false

/-- spec/20_memory.md R37, line by line. An unspecified level is the free value of the pin, the moment and the
pull; that an output latch of 0 against a device pulling low reads 0, a case R37 does not list, and that the
moment is the observer's, is the model's choice (log 8). -/
def Obligations.WireLevelTable : Prop :=
  ∀ (b : Bus) (p : Params) (l : Line) (moment : Nat) (envLow : Bool),
    ((b.pin l).mode = .outLow → b.level p l moment envLow = false) ∧
    ((b.pin l).mode = .inPullup → envLow = true → b.level p l moment envLow = false) ∧
    ((b.pin l).mode = .inPullup → envLow = false → b.level p l moment envLow = true) ∧
    ((b.pin l).mode = .outLatch → envLow = false → b.level p l moment envLow = (b.pin l).latch) ∧
    ((b.pin l).mode = .outLatch → envLow = true → (b.pin l).latch = true →
      b.level p l moment envLow = Config.freeLevel (p.pinOf l) moment envLow) ∧
    ((b.pin l).mode = .outLatch → envLow = true → (b.pin l).latch = false →
      b.level p l moment envLow = false) ∧
    ((b.pin l).mode = .unconfigured →
      b.level p l moment envLow = Config.freeLevel (p.pinOf l) moment envLow)

/-- spec/30_encoding.md R62. -/
def Obligations.ResponseWords : Prop :=
  Response.rsp .noValue = some 0 ∧
    (∀ b, Response.rsp (.accepted b) = some (if b then 1 else 0)) ∧
    (∀ b, Response.rsp (.acked b) = some (if b then 1 else 0)) ∧
    Response.rsp (.status .ok) = some 0 ∧ Response.rsp (.status .addrNack) = some 2 ∧
    Response.rsp (.status .dataNack) = some 3 ∧
    (∀ n : Fin 33, ∃ v : Byte, Response.rsp (.received n) = some v ∧ v.toNat = n.val) ∧
    (∀ n : Fin 33, ∃ v : Byte, Response.rsp (.count n) = some v ∧ v.toNat = n.val) ∧
    (∀ v, Response.rsp (.byte v) = some v) ∧
    (∀ v, Response.rsp (.level v) = some (if v then 1 else 0)) ∧
    (∀ v, Response.rsp (.bit v) = some (if v then 1 else 0)) ∧
    Response.rsp .illegal = none

/-- spec/30_encoding.md R52: the address byte, for any operand byte as it stands in field `A`. -/
def Obligations.AddressByteLayout : Prop :=
  ∀ x : Byte,
    addrByte (x.setWidth 7) .write = ((x &&& 0x7F) <<< 1) ||| 0 ∧
    addrByte (x.setWidth 7) .read = ((x &&& 0x7F) <<< 1) ||| 1

/-- spec/10_state.md R24 (2): buffer cells at or above the length are read by nothing. -/
def Obligations.StaleCellsNeverShow : Prop :=
  ∀ (i : Instr) (s t : State), SameButStale s t →
    ∃ s' t', exec i s = .next s' ∧ exec i t = .next t' ∧ SameButStale s' t'

/-- spec/10_state.md R27, spec/60_exceptions.md R134: engines with a common pin are not built, well-formed
ones on disjoint pins are, each at its own reset state; a step of one engine puts the next state `step` gives in
its place and changes no other. The refusal, and that engines step one at a time, is log 17. -/
def Obligations.EnginesAreIndependent : Prop :=
  (∀ ps : List Params, ¬ (ps.flatMap Params.pins).Nodup → System.build ps = none) ∧
  (∀ ps : List Params, (∀ p ∈ ps, p.sdaPin ≠ p.sclPin ∧ 1 ≤ p.stretchMaxPolls) →
    (ps.flatMap Params.pins).Nodup → System.build ps = some (ps.map fun p => State.construct p 0)) ∧
  (∀ (ps : List Params) (sys : System), System.build ps = some sys →
    sys = ps.map (fun p => State.construct p 0) ∧
      (sys.flatMap fun s => s.params.pins).Nodup) ∧
  (∀ (k : Nat) (sys : System) (s t : State), sys[k]? = some s → step s = .next t →
    (System.stepAt k sys)[k]? = some t) ∧
  (∀ (k : Nat) (sys : System), (System.stepAt k sys).length = sys.length ∧
    (∀ j, j ≠ k → (System.stepAt k sys)[j]? = sys[j]?) ∧
    (System.stepAt k sys).map State.params = sys.map State.params)
end

