-- ==== Sys2Proof/Laws/Decode.lean ====
section
/-! SUPPORT. The fields of a packed word, and the one-bit operands (spec/30_encoding.md R57, R59): decoding
and encoding meet in these lemmas. -/

namespace Sys2Proof.Laws

@[simp] theorem opOf_packWord (op a b : Byte) : opOf (packWord op a b) = op := by
  ext i hi
  simp only [opOf, packWord, BitVec.getElem_extractLsb', BitVec.getLsbD_append]
  simp [show ¬ 24 + i < 8 by omega, show ¬ 24 + i - 8 < 8 by omega, show ¬ 24 + i - 8 - 8 < 8 by omega,
    show 24 + i - 8 - 8 - 8 = i by omega, hi]

@[simp] theorem rsvOf_packWord (op a b : Byte) : rsvOf (packWord op a b) = 0 := by
  ext i hi
  simp only [rsvOf, packWord, BitVec.getElem_extractLsb', BitVec.getLsbD_append]
  simp [show ¬ 16 + i < 8 by omega, show ¬ 16 + i - 8 < 8 by omega, show 16 + i - 8 - 8 < 8 by omega]

@[simp] theorem fieldA_packWord (op a b : Byte) : fieldA (packWord op a b) = a := by
  ext i hi
  simp only [fieldA, packWord, BitVec.getElem_extractLsb', BitVec.getLsbD_append]
  simp [show ¬ 8 + i < 8 by omega, show 8 + i - 8 = i by omega, hi]

@[simp] theorem fieldB_packWord (op a b : Byte) : fieldB (packWord op a b) = b := by
  ext i hi
  simp only [fieldB, packWord, BitVec.getElem_extractLsb', BitVec.getLsbD_append]
  simp [hi]

/-- A word is its four fields. -/
theorem packWord_fields (w : CmdWord) (h : rsvOf w = 0) :
    packWord (opOf w) (fieldA w) (fieldB w) = w := by
  have h' : (0 : Byte) = rsvOf w := h.symm
  unfold packWord
  rw [h']
  ext i hi
  simp only [rsvOf, opOf, fieldA, fieldB, BitVec.getElem_eq_testBit_toNat, BitVec.testBit_toNat,
    BitVec.getLsbD_append, BitVec.getLsbD_extractLsb']
  split
  · simp_all
  · split
    · simp_all [show 8 + (i - 8) = i by omega]
    · split
      · simp_all [show 16 + (i - 8 - 8) = i by omega]
      · simp_all [show i - 8 - 8 - 8 < 8 by omega, show 24 + (i - 8 - 8 - 8) = i by omega]

@[simp] theorem lineOfBit_bitOfLine (l : Line) : lineOfBit (bitOfLine l) = l := by cases l <;> rfl

@[simp] theorem bitOfLine_lineOfBit (x : Bool) : bitOfLine (lineOfBit x) = x := by cases x <;> rfl

/-- A one-bit operand byte has nothing above bit 0. -/
@[simp] theorem byteOfBit_high (x : Bool) : (byteOfBit x).extractLsb' 1 7 = 0 := by cases x <;> decide

@[simp] theorem byteOfBit_low (x : Bool) : (byteOfBit x)[0] = x := by cases x <;> decide

/-- An operand byte with nothing above bit 0 is the byte of its bit 0. -/
theorem byteOfBit_of_high (b : Byte) (h : b.extractLsb' 1 7 = 0) : byteOfBit (b.getLsbD 0) = b := by
  revert b
  decide

@[simp] theorem addr_through_field (a : Addr) : ((a.setWidth 8 : Byte).setWidth 7 : Addr) = a := by
  ext i hi
  simp

theorem noOperand_eq_ok {a b : Byte} {i j : Instr} (h : noOperand a b i = .ok j) :
    a = 0 ∧ b = 0 ∧ j = i := by
  unfold noOperand at h
  split at h
  · rename_i hab
    exact ⟨hab.1, hab.2, by simpa using h.symm⟩
  · simp at h

theorem byteOperand_eq_ok {a b : Byte} {f : Byte → Instr} {j : Instr} (h : byteOperand a b f = .ok j) :
    a = 0 ∧ j = f b := by
  unfold byteOperand at h
  split at h
  · rename_i ha
    exact ⟨ha, by simpa using h.symm⟩
  · simp at h

theorem bitOperand_eq_ok {a b : Byte} {f : Bool → Instr} {j : Instr} (h : bitOperand a b f = .ok j) :
    a = 0 ∧ b = byteOfBit (b.getLsbD 0) ∧ j = f (b.getLsbD 0) := by
  unfold bitOperand at h
  split at h
  · rename_i hab
    exact ⟨hab.1, (byteOfBit_of_high b hab.2).symm, by simpa using h.symm⟩
  · simp at h

/-- The bits of field `A` an operation does not ignore: all but `A[7]` of an address (R59). -/
def usedA : Instr → Byte
  | .beginTx _ => 0x7F
  | .requestFrom _ _ => 0x7F
  | _ => 0xFF

theorem and_ff (x : Byte) : x &&& 0xFF = x := by
  revert x
  decide

theorem addr_of_field (x : Byte) : ((x.setWidth 7 : Addr).setWidth 8 : Byte) = x &&& 0x7F := by
  revert x
  decide

/-- What a decoded word's fields are: the operation's code, 0, and its operands. -/
theorem decode_fields {w : CmdWord} {i : Instr} (h : decode w = .ok i) :
    opOf w = i.opcode ∧ rsvOf w = 0 ∧ fieldA w &&& usedA i = i.operandA ∧ fieldB w = i.operandB := by
  unfold decode at h
  split at h
  · rename_i hr
    have hop : ∀ k : Nat, (opOf w).toNat = k → opOf w = BitVec.ofNat 8 k := by
      intro k hk
      rw [← hk, BitVec.ofNat_toNat, BitVec.setWidth_eq]
    unfold decodeOp at h
    split at h
    all_goals first
      | (obtain ⟨h1, h2, rfl⟩ := noOperand_eq_ok h; exact ⟨hop _ ‹_›, hr, by simp [h1, Instr.operandA], h2⟩)
      | (obtain ⟨h1, rfl⟩ := byteOperand_eq_ok h; exact ⟨hop _ ‹_›, hr, by simp [h1, Instr.operandA], rfl⟩)
      | (obtain ⟨h1, h2, rfl⟩ := bitOperand_eq_ok h
         exact ⟨hop _ ‹_›, hr, by simp [h1, Instr.operandA],
           by simpa only [Instr.operandB, bitOfLine_lineOfBit] using h2⟩)
      | (split at h
         · rename_i hb
           obtain rfl := Except.ok.inj h
           exact ⟨hop _ ‹_›, hr, (addr_of_field _).symm, hb⟩
         · exact absurd h (by simp))
      | (obtain rfl := Except.ok.inj h; exact ⟨hop _ ‹_›, hr, (addr_of_field _).symm, rfl⟩)
      | exact absurd h (by simp)
  · exact absurd h (by simp)

/-- A masked comparison of words is one of their fields (R61). -/
theorem masked_iff_fields (w m v : CmdWord) : w &&& m = v ↔
    opOf w &&& opOf m = opOf v ∧ rsvOf w &&& rsvOf m = rsvOf v ∧
      fieldA w &&& fieldA m = fieldA v ∧ fieldB w &&& fieldB m = fieldB v := by
  constructor
  · rintro rfl
    refine ⟨?_, ?_, ?_, ?_⟩ <;> (ext i hi; simp [opOf, rsvOf, fieldA, fieldB])
  · rintro ⟨h1, h2, h3, h4⟩
    apply BitVec.eq_of_getLsbD_eq
    intro i hi
    rw [BitVec.getLsbD_and]
    rcases Nat.lt_or_ge i 8 with h | h
    · simpa [fieldB, h] using congrArg (fun x => x.getLsbD i) h4
    rcases Nat.lt_or_ge i 16 with h' | h'
    · simpa [fieldA, show i - 8 < 8 by omega, show 8 + (i - 8) = i by omega] using
        congrArg (fun x => x.getLsbD (i - 8)) h3
    rcases Nat.lt_or_ge i 24 with h'' | h''
    · simpa [rsvOf, show i - 16 < 8 by omega, show 16 + (i - 16) = i by omega] using
        congrArg (fun x => x.getLsbD (i - 16)) h2
    · simpa [opOf, show i - 24 < 8 by omega, show 24 + (i - 24) = i by omega] using
        congrArg (fun x => x.getLsbD (i - 24)) h1

end Sys2Proof.Laws
end

