-- ==== Sys2Proof/Laws/State.lean ====
section
/-! SUPPORT. One lemma for each field and each update of the state and of the bus, true by unfolding the
update once, so that no later proof unfolds a record update. -/

namespace Sys2Proof.Laws

open Sys2Proof.Machine

/-! ### The pin of a line -/

@[simp] theorem pinOf_sda (p : Params) : p.pinOf .sda = p.sdaPin := rfl
@[simp] theorem pinOf_scl (p : Params) : p.pinOf .scl = p.sclPin := rfl

/-! ### Bus: the phase -/

@[simp] theorem setPhase_sda (b : Bus) (p : Phase) : (b.setPhase p).sda = b.sda := rfl
@[simp] theorem setPhase_scl (b : Bus) (p : Phase) : (b.setPhase p).scl = b.scl := rfl
@[simp] theorem setPhase_phase (b : Bus) (p : Phase) : (b.setPhase p).phase = p := rfl
@[simp] theorem setPhase_envSda (b : Bus) (p : Phase) : (b.setPhase p).envSda = b.envSda := rfl
@[simp] theorem setPhase_envScl (b : Bus) (p : Phase) : (b.setPhase p).envScl = b.envScl := rfl
@[simp] theorem setPhase_draws (b : Bus) (p : Phase) : (b.setPhase p).draws = b.draws := rfl
@[simp] theorem setPhase_stretchTimedOut (b : Bus) (p : Phase) : (b.setPhase p).stretchTimedOut = b.stretchTimedOut := rfl
@[simp] theorem setPhase_trace (b : Bus) (p : Phase) : (b.setPhase p).trace = b.trace := rfl

/-! ### Bus: a pin event -/

@[simp] theorem emit_sda (b : Bus) (e : Event) : (b.emit e).sda = b.sda := rfl
@[simp] theorem emit_scl (b : Bus) (e : Event) : (b.emit e).scl = b.scl := rfl
@[simp] theorem emit_phase (b : Bus) (e : Event) : (b.emit e).phase = b.phase := rfl
@[simp] theorem emit_envSda (b : Bus) (e : Event) : (b.emit e).envSda = b.envSda := rfl
@[simp] theorem emit_envScl (b : Bus) (e : Event) : (b.emit e).envScl = b.envScl := rfl
@[simp] theorem emit_draws (b : Bus) (e : Event) : (b.emit e).draws = b.draws := rfl
@[simp] theorem emit_stretchTimedOut (b : Bus) (e : Event) : (b.emit e).stretchTimedOut = b.stretchTimedOut := rfl
@[simp] theorem emit_trace (b : Bus) (e : Event) : (b.emit e).trace = b.trace ++ [⟨b.phase, e⟩] := rfl

/-! ### Bus: a pin -/

@[simp] theorem setPin_sda_sda (b : Bus) (p : Pin) : (b.setPin .sda p).sda = p := rfl
@[simp] theorem setPin_scl_sda (b : Bus) (p : Pin) : (b.setPin .scl p).sda = b.sda := rfl
@[simp] theorem setPin_scl_scl (b : Bus) (p : Pin) : (b.setPin .scl p).scl = p := rfl
@[simp] theorem setPin_sda_scl (b : Bus) (p : Pin) : (b.setPin .sda p).scl = b.scl := rfl
@[simp] theorem setPin_phase (b : Bus) (l : Line) (p : Pin) : (b.setPin l p).phase = b.phase := by cases l <;> rfl
@[simp] theorem setPin_envSda (b : Bus) (l : Line) (p : Pin) : (b.setPin l p).envSda = b.envSda := by cases l <;> rfl
@[simp] theorem setPin_envScl (b : Bus) (l : Line) (p : Pin) : (b.setPin l p).envScl = b.envScl := by cases l <;> rfl
@[simp] theorem setPin_draws (b : Bus) (l : Line) (p : Pin) : (b.setPin l p).draws = b.draws := by cases l <;> rfl
@[simp] theorem setPin_stretchTimedOut (b : Bus) (l : Line) (p : Pin) : (b.setPin l p).stretchTimedOut = b.stretchTimedOut := by cases l <;> rfl
@[simp] theorem setPin_trace (b : Bus) (l : Line) (p : Pin) : (b.setPin l p).trace = b.trace := by cases l <;> rfl

/-! ### Bus: the answers on a line -/

@[simp] theorem setEnv_sda (b : Bus) (l : Line) (e : EnvStream) : (b.setEnv l e).sda = b.sda := by cases l <;> rfl
@[simp] theorem setEnv_scl (b : Bus) (l : Line) (e : EnvStream) : (b.setEnv l e).scl = b.scl := by cases l <;> rfl
@[simp] theorem setEnv_phase (b : Bus) (l : Line) (e : EnvStream) : (b.setEnv l e).phase = b.phase := by cases l <;> rfl
@[simp] theorem setEnv_sda_envSda (b : Bus) (e : EnvStream) : (b.setEnv .sda e).envSda = e := rfl
@[simp] theorem setEnv_scl_envSda (b : Bus) (e : EnvStream) : (b.setEnv .scl e).envSda = b.envSda := rfl
@[simp] theorem setEnv_scl_envScl (b : Bus) (e : EnvStream) : (b.setEnv .scl e).envScl = e := rfl
@[simp] theorem setEnv_sda_envScl (b : Bus) (e : EnvStream) : (b.setEnv .sda e).envScl = b.envScl := rfl
@[simp] theorem setEnv_draws (b : Bus) (l : Line) (e : EnvStream) : (b.setEnv l e).draws = b.draws := by cases l <;> rfl
@[simp] theorem setEnv_stretchTimedOut (b : Bus) (l : Line) (e : EnvStream) : (b.setEnv l e).stretchTimedOut = b.stretchTimedOut := by cases l <;> rfl
@[simp] theorem setEnv_trace (b : Bus) (l : Line) (e : EnvStream) : (b.setEnv l e).trace = b.trace := by cases l <;> rfl

/-! ### Bus: access by line -/

@[simp] theorem pin_sda (b : Bus) : b.pin .sda = b.sda := rfl
@[simp] theorem pin_scl (b : Bus) : b.pin .scl = b.scl := rfl
@[simp] theorem env_sda (b : Bus) : b.env .sda = b.envSda := rfl
@[simp] theorem env_scl (b : Bus) : b.env .scl = b.envScl := rfl
@[simp] theorem setPin_pin (b : Bus) (l : Line) (p : Pin) : (b.setPin l p).pin l = p := by cases l <;> rfl
@[simp] theorem setPin_pin_other (b : Bus) (l : Line) (p : Pin) : (b.setPin l p).pin l.other = b.pin l.other := by cases l <;> rfl
@[simp] theorem setPin_env (b : Bus) (l m : Line) (p : Pin) : (b.setPin l p).env m = b.env m := by cases l <;> cases m <;> rfl
@[simp] theorem setEnv_env (b : Bus) (l : Line) (e : EnvStream) : (b.setEnv l e).env l = e := by cases l <;> rfl
@[simp] theorem setEnv_env_other (b : Bus) (l : Line) (e : EnvStream) : (b.setEnv l e).env l.other = b.env l.other := by cases l <;> rfl
@[simp] theorem setEnv_pin (b : Bus) (l m : Line) (e : EnvStream) : (b.setEnv l e).pin m = b.pin m := by cases l <;> cases m <;> rfl
@[simp] theorem emit_pin (b : Bus) (m : Line) (e : Event) : (b.emit e).pin m = b.pin m := by cases m <;> rfl
@[simp] theorem emit_env (b : Bus) (m : Line) (e : Event) : (b.emit e).env m = b.env m := by cases m <;> rfl
@[simp] theorem setPhase_pin (b : Bus) (m : Line) (p : Phase) : (b.setPhase p).pin m = b.pin m := by cases m <;> rfl
@[simp] theorem setPhase_env (b : Bus) (m : Line) (p : Phase) : (b.setPhase p).env m = b.env m := by cases m <;> rfl

/-! ### State: answering -/

@[simp] theorem respond_params (s : State) (r : Response) : (s.respond r).params = s.params := rfl
@[simp] theorem respond_addr (s : State) (r : Response) : (s.respond r).addr = s.addr := rfl
@[simp] theorem respond_txLen (s : State) (r : Response) : (s.respond r).txLen = s.txLen := rfl
@[simp] theorem respond_rxLen (s : State) (r : Response) : (s.respond r).rxLen = s.rxLen := rfl
@[simp] theorem respond_rxCur (s : State) (r : Response) : (s.respond r).rxCur = s.rxCur := rfl
@[simp] theorem respond_txActive (s : State) (r : Response) : (s.respond r).txActive = s.txActive := rfl
@[simp] theorem respond_txBuf (s : State) (r : Response) : (s.respond r).txBuf = s.txBuf := rfl
@[simp] theorem respond_rxBuf (s : State) (r : Response) : (s.respond r).rxBuf = s.rxBuf := rfl
@[simp] theorem respond_bus (s : State) (r : Response) : (s.respond r).bus = s.bus := rfl
@[simp] theorem respond_incoming (s : State) (r : Response) : (s.respond r).incoming = s.incoming := rfl
@[simp] theorem respond_response (s : State) (r : Response) : (s.respond r).response = some r := rfl
@[simp] theorem respond_resets (s : State) (r : Response) : (s.respond r).resets = s.resets := rfl

@[simp] theorem finish_params (s : State) (b : Bus) (r : Response) : (s.finish b r).params = s.params := rfl
@[simp] theorem finish_addr (s : State) (b : Bus) (r : Response) : (s.finish b r).addr = s.addr := rfl
@[simp] theorem finish_txLen (s : State) (b : Bus) (r : Response) : (s.finish b r).txLen = s.txLen := rfl
@[simp] theorem finish_rxLen (s : State) (b : Bus) (r : Response) : (s.finish b r).rxLen = s.rxLen := rfl
@[simp] theorem finish_rxCur (s : State) (b : Bus) (r : Response) : (s.finish b r).rxCur = s.rxCur := rfl
@[simp] theorem finish_txActive (s : State) (b : Bus) (r : Response) : (s.finish b r).txActive = s.txActive := rfl
@[simp] theorem finish_txBuf (s : State) (b : Bus) (r : Response) : (s.finish b r).txBuf = s.txBuf := rfl
@[simp] theorem finish_rxBuf (s : State) (b : Bus) (r : Response) : (s.finish b r).rxBuf = s.rxBuf := rfl
@[simp] theorem finish_bus (s : State) (b : Bus) (r : Response) : (s.finish b r).bus = b := rfl
@[simp] theorem finish_incoming (s : State) (b : Bus) (r : Response) : (s.finish b r).incoming = s.incoming := rfl
@[simp] theorem finish_response (s : State) (b : Bus) (r : Response) : (s.finish b r).response = some r := rfl
@[simp] theorem finish_resets (s : State) (b : Bus) (r : Response) : (s.finish b r).resets = s.resets := rfl

/-! ### State: the flag and the emptied transmit buffer -/

@[simp] theorem markInProgress_params (s : State) : s.markInProgress.params = s.params := rfl
@[simp] theorem markInProgress_addr (s : State) : s.markInProgress.addr = s.addr := rfl
@[simp] theorem markInProgress_txLen (s : State) : s.markInProgress.txLen = s.txLen := rfl
@[simp] theorem markInProgress_rxLen (s : State) : s.markInProgress.rxLen = s.rxLen := rfl
@[simp] theorem markInProgress_rxCur (s : State) : s.markInProgress.rxCur = s.rxCur := rfl
@[simp] theorem markInProgress_txActive (s : State) : s.markInProgress.txActive = true := rfl
@[simp] theorem markInProgress_txBuf (s : State) : s.markInProgress.txBuf = s.txBuf := rfl
@[simp] theorem markInProgress_rxBuf (s : State) : s.markInProgress.rxBuf = s.rxBuf := rfl
@[simp] theorem markInProgress_bus (s : State) : s.markInProgress.bus = s.bus := rfl
@[simp] theorem markInProgress_incoming (s : State) : s.markInProgress.incoming = s.incoming := rfl
@[simp] theorem markInProgress_response (s : State) : s.markInProgress.response = s.response := rfl
@[simp] theorem markInProgress_resets (s : State) : s.markInProgress.resets = s.resets := rfl

@[simp] theorem clearTx_params (s : State) : s.clearTx.params = s.params := rfl
@[simp] theorem clearTx_addr (s : State) : s.clearTx.addr = s.addr := rfl
@[simp] theorem clearTx_txLen (s : State) : s.clearTx.txLen = 0 := rfl
@[simp] theorem clearTx_rxLen (s : State) : s.clearTx.rxLen = s.rxLen := rfl
@[simp] theorem clearTx_rxCur (s : State) : s.clearTx.rxCur = s.rxCur := rfl
@[simp] theorem clearTx_txActive (s : State) : s.clearTx.txActive = false := rfl
@[simp] theorem clearTx_txBuf (s : State) : s.clearTx.txBuf = s.txBuf := rfl
@[simp] theorem clearTx_rxBuf (s : State) : s.clearTx.rxBuf = s.rxBuf := rfl
@[simp] theorem clearTx_bus (s : State) : s.clearTx.bus = s.bus := rfl
@[simp] theorem clearTx_incoming (s : State) : s.clearTx.incoming = s.incoming := rfl
@[simp] theorem clearTx_response (s : State) : s.clearTx.response = s.response := rfl
@[simp] theorem clearTx_resets (s : State) : s.clearTx.resets = s.resets := rfl

/-! ### State: the transmit buffer -/

@[simp] theorem pushTx_params (s : State) (b : Byte) : (s.pushTx b).params = s.params := by unfold State.pushTx; split <;> rfl
@[simp] theorem pushTx_addr (s : State) (b : Byte) : (s.pushTx b).addr = s.addr := by unfold State.pushTx; split <;> rfl
@[simp] theorem pushTx_rxLen (s : State) (b : Byte) : (s.pushTx b).rxLen = s.rxLen := by unfold State.pushTx; split <;> rfl
@[simp] theorem pushTx_rxCur (s : State) (b : Byte) : (s.pushTx b).rxCur = s.rxCur := by unfold State.pushTx; split <;> rfl
@[simp] theorem pushTx_txActive (s : State) (b : Byte) : (s.pushTx b).txActive = s.txActive := by unfold State.pushTx; split <;> rfl
@[simp] theorem pushTx_rxBuf (s : State) (b : Byte) : (s.pushTx b).rxBuf = s.rxBuf := by unfold State.pushTx; split <;> rfl
@[simp] theorem pushTx_bus (s : State) (b : Byte) : (s.pushTx b).bus = s.bus := by unfold State.pushTx; split <;> rfl
@[simp] theorem pushTx_incoming (s : State) (b : Byte) : (s.pushTx b).incoming = s.incoming := by unfold State.pushTx; split <;> rfl
@[simp] theorem pushTx_response (s : State) (b : Byte) : (s.pushTx b).response = s.response := by unfold State.pushTx; split <;> rfl
@[simp] theorem pushTx_resets (s : State) (b : Byte) : (s.pushTx b).resets = s.resets := by unfold State.pushTx; split <;> rfl

theorem pushTx_full (s : State) (b : Byte) (h : s.txLen.val = 32) : s.pushTx b = s := by
  simp [State.pushTx, h]

theorem pushTx_txLen (s : State) (b : Byte) (h : s.txLen.val < 32) :
    (s.pushTx b).txLen.val = s.txLen.val + 1 := by
  simp [State.pushTx, h]

theorem pushTx_txBuf (s : State) (b : Byte) (h : s.txLen.val < 32) :
    (s.pushTx b).txBuf = s.txBuf.setIfInBounds s.txLen.val b := by
  simp [State.pushTx, h]

/-- An accepted byte is queued behind the others (spec/20_memory.md R30). -/
theorem pushTx_queued (s : State) (b : Byte) (h : s.txLen.val < 32) :
    (s.pushTx b).queued = s.queued ++ [b] := by
  rw [State.queued, pushTx_txLen s b h, List.take_add_one]
  simp [pushTx_txBuf, h, State.queued, List.take_set_of_le]

@[simp] theorem queued_length (s : State) : s.queued.length = s.txLen.val := by
  simp [State.queued]
  omega

/-! ### State: the receive cursor -/

@[simp] theorem advanceRx_params (s : State) : s.advanceRx.params = s.params := by unfold State.advanceRx; split <;> rfl
@[simp] theorem advanceRx_addr (s : State) : s.advanceRx.addr = s.addr := by unfold State.advanceRx; split <;> rfl
@[simp] theorem advanceRx_txLen (s : State) : s.advanceRx.txLen = s.txLen := by unfold State.advanceRx; split <;> rfl
@[simp] theorem advanceRx_rxLen (s : State) : s.advanceRx.rxLen = s.rxLen := by unfold State.advanceRx; split <;> rfl
@[simp] theorem advanceRx_txActive (s : State) : s.advanceRx.txActive = s.txActive := by unfold State.advanceRx; split <;> rfl
@[simp] theorem advanceRx_txBuf (s : State) : s.advanceRx.txBuf = s.txBuf := by unfold State.advanceRx; split <;> rfl
@[simp] theorem advanceRx_rxBuf (s : State) : s.advanceRx.rxBuf = s.rxBuf := by unfold State.advanceRx; split <;> rfl
@[simp] theorem advanceRx_bus (s : State) : s.advanceRx.bus = s.bus := by unfold State.advanceRx; split <;> rfl
@[simp] theorem advanceRx_incoming (s : State) : s.advanceRx.incoming = s.incoming := by unfold State.advanceRx; split <;> rfl
@[simp] theorem advanceRx_response (s : State) : s.advanceRx.response = s.response := by unfold State.advanceRx; split <;> rfl
@[simp] theorem advanceRx_resets (s : State) : s.advanceRx.resets = s.resets := by unfold State.advanceRx; split <;> rfl

theorem advanceRx_rxCur (s : State) (h : s.rxCur.val < s.rxLen.val) :
    s.advanceRx.rxCur.val = s.rxCur.val + 1 := by
  simp [State.advanceRx, h]

theorem advanceRx_empty (s : State) (h : s.rxLen.val ≤ s.rxCur.val) : s.advanceRx = s := by
  simp [State.advanceRx, Nat.not_lt.mpr h]

/-! ### Reset -/

@[simp] theorem construct_params (p : Params) (k : Nat) : (State.construct p k).params = p := rfl
@[simp] theorem construct_txLen (p : Params) (k : Nat) : (State.construct p k).txLen = 0 := rfl
@[simp] theorem construct_rxLen (p : Params) (k : Nat) : (State.construct p k).rxLen = 0 := rfl
@[simp] theorem construct_rxCur (p : Params) (k : Nat) : (State.construct p k).rxCur = 0 := rfl
@[simp] theorem construct_txActive (p : Params) (k : Nat) : (State.construct p k).txActive = false := rfl
@[simp] theorem construct_incoming (p : Params) (k : Nat) : (State.construct p k).incoming = [] := rfl
@[simp] theorem construct_response (p : Params) (k : Nat) : (State.construct p k).response = none := rfl
@[simp] theorem construct_resets (p : Params) (k : Nat) : (State.construct p k).resets = k := rfl
@[simp] theorem construct_bus_phase (p : Params) (k : Nat) : (State.construct p k).bus.phase = .idle := rfl
@[simp] theorem construct_bus_trace (p : Params) (k : Nat) : (State.construct p k).bus.trace = [] := rfl
@[simp] theorem construct_bus_stretchTimedOut (p : Params) (k : Nat) : (State.construct p k).bus.stretchTimedOut = false := rfl
@[simp] theorem construct_bus_draws (p : Params) (k : Nat) : (State.construct p k).bus.draws = 0 := rfl
@[simp] theorem construct_sda_mode (p : Params) (k : Nat) : (State.construct p k).bus.sda.mode = .unconfigured := rfl
@[simp] theorem construct_scl_mode (p : Params) (k : Nat) : (State.construct p k).bus.scl.mode = .unconfigured := rfl

end Sys2Proof.Laws
end

