-- ==== Sys2Proof/Laws/Ops.lean ====
section
/-! SUPPORT. What each shared operation of the line side does to the pins, the phase, the answers on the
data line, the trace without clock-stretch polls, and the ghost flag. Later proofs cite these lemmas and do
not unfold the operations. -/

namespace Sys2Proof.Laws

open Sys2Proof.Machine

/-! ### The trace -/

@[simp] theorem events_emit (b : Bus) (e : Event) : (b.emit e).events = b.events ++ [e] := by
  simp [Bus.events]

@[simp] theorem events_setPhase (b : Bus) (p : Phase) : (b.setPhase p).events = b.events := rfl

@[simp] theorem events_setPin (b : Bus) (l : Line) (p : Pin) : (b.setPin l p).events = b.events := by
  simp [Bus.events]

@[simp] theorem events_setEnv (b : Bus) (l : Line) (e : EnvStream) : (b.setEnv l e).events = b.events := by
  simp [Bus.events]

@[simp] theorem coarse_emit (b : Bus) (e : Event) :
    (b.emit e).coarse = b.coarse ++ [e].filter Event.isCoarse := by
  simp [Bus.coarse]

@[simp] theorem coarse_setPhase (b : Bus) (p : Phase) : (b.setPhase p).coarse = b.coarse := rfl

@[simp] theorem coarse_setPin (b : Bus) (l : Line) (p : Pin) : (b.setPin l p).coarse = b.coarse := by
  simp [Bus.coarse]

@[simp] theorem coarse_setEnv (b : Bus) (l : Line) (e : EnvStream) : (b.setEnv l e).coarse = b.coarse := by
  simp [Bus.coarse]

/-! ### The wire (spec/20_memory.md R37) -/

@[simp] theorem wireLevel_inPullup (v : Level) (envLow : Bool) (free : Level) :
    wireLevel ⟨.inPullup, v⟩ envLow free = !envLow := rfl

@[simp] theorem wireLevel_outLow (v : Level) (envLow : Bool) (free : Level) :
    wireLevel ⟨.outLow, v⟩ envLow free = false := rfl

/-- A written answer is given as it is written. -/
theorem next_cons (pin : Nat) (v : Level) (rest : List Level) (n : Nat) :
    EnvStream.next pin ⟨v :: rest, n⟩ = (v, ⟨rest, n⟩) := rfl

/-- `Sample` returns the environment's next answer (spec/20_memory.md R38): the pin is released first, so
neither its mode nor its latch plays a part (spec/40_line_primitives.md R72). -/
@[simp] theorem sampledLevel_eq (p : Params) (l : Line) (b : Bus) : sampledLevel p l b = ((b.env l).next (p.pinOf l)).1 := by
  simp [sampledLevel, Bus.level, configureInput]

@[simp] theorem sample_fst (p : Params) (l : Line) (b : Bus) : (sample p l b).1 = ((b.env l).next (p.pinOf l)).1 := by simp [sample]

/-! ### `DriveLow` (spec/40_line_primitives.md R70) -/

@[simp] theorem driveLow_sda_sda (p : Params) (b : Bus) :
    (driveLow p .sda b).sda = ⟨.outLow, false⟩ := rfl
@[simp] theorem driveLow_sda_scl (p : Params) (b : Bus) :
    (driveLow p .sda b).scl = b.scl := rfl
@[simp] theorem driveLow_scl_scl (p : Params) (b : Bus) :
    (driveLow p .scl b).scl = ⟨.outLow, false⟩ := rfl
@[simp] theorem driveLow_scl_sda (p : Params) (b : Bus) :
    (driveLow p .scl b).sda = b.sda := rfl
@[simp] theorem driveLow_phase (p : Params) (l : Line) (b : Bus) :
    (driveLow p l b).phase = b.phase := by cases l <;> rfl
@[simp] theorem driveLow_envSda (p : Params) (l : Line) (b : Bus) :
    (driveLow p l b).envSda = b.envSda := by cases l <;> rfl
@[simp] theorem driveLow_envScl (p : Params) (l : Line) (b : Bus) :
    (driveLow p l b).envScl = b.envScl := by cases l <;> rfl
@[simp] theorem driveLow_stretchTimedOut (p : Params) (l : Line) (b : Bus) :
    (driveLow p l b).stretchTimedOut = b.stretchTimedOut := by cases l <;> rfl
@[simp] theorem driveLow_draws (p : Params) (l : Line) (b : Bus) :
    (driveLow p l b).draws = drawsOnConfig p.outLatch b := by cases l <;> rfl
@[simp] theorem driveLow_events (p : Params) (l : Line) (b : Bus) :
    (driveLow p l b).events = b.events ++ [.latchOut l (latchOnConfig p l b), .low l] := by
  cases l <;> simp [driveLow, assertLow, configureOutput, Bus.events, Bus.emit, Bus.setPin]
@[simp] theorem driveLow_coarse (p : Params) (l : Line) (b : Bus) :
    (driveLow p l b).coarse = b.coarse ++ [.low l] := by
  simp [Bus.coarse, Event.isCoarse]

/-! ### `Release` (R71) -/

@[simp] theorem release_sda_sda (b : Bus) :
    (release .sda b).sda = ⟨.inPullup, b.sda.latch⟩ := rfl
@[simp] theorem release_sda_scl (b : Bus) :
    (release .sda b).scl = b.scl := rfl
@[simp] theorem release_scl_scl (b : Bus) :
    (release .scl b).scl = ⟨.inPullup, b.scl.latch⟩ := rfl
@[simp] theorem release_scl_sda (b : Bus) :
    (release .scl b).sda = b.sda := rfl
@[simp] theorem release_phase (l : Line) (b : Bus) :
    (release l b).phase = b.phase := by cases l <;> rfl
@[simp] theorem release_envSda (l : Line) (b : Bus) :
    (release l b).envSda = b.envSda := by cases l <;> rfl
@[simp] theorem release_envScl (l : Line) (b : Bus) :
    (release l b).envScl = b.envScl := by cases l <;> rfl
@[simp] theorem release_stretchTimedOut (l : Line) (b : Bus) :
    (release l b).stretchTimedOut = b.stretchTimedOut := by cases l <;> rfl
@[simp] theorem release_draws (l : Line) (b : Bus) :
    (release l b).draws = b.draws := by cases l <;> rfl
@[simp] theorem release_events (l : Line) (b : Bus) :
    (release l b).events = b.events ++ [.floated l] := by
  simp [release, configureInput]
@[simp] theorem release_coarse (l : Line) (b : Bus) :
    (release l b).coarse = b.coarse ++ [.floated l] := by
  simp [Bus.coarse, Event.isCoarse]

/-! ### `Sample` (R72) -/

@[simp] theorem sample_sda_sda (p : Params) (b : Bus) :
    (sample p .sda b).2.sda = ⟨.inPullup, b.sda.latch⟩ := rfl
@[simp] theorem sample_sda_scl (p : Params) (b : Bus) :
    (sample p .sda b).2.scl = b.scl := rfl
@[simp] theorem sample_sda_envSda (p : Params) (b : Bus) :
    (sample p .sda b).2.envSda = (b.envSda.next p.sdaPin).2 := rfl
@[simp] theorem sample_sda_envScl (p : Params) (b : Bus) :
    (sample p .sda b).2.envScl = b.envScl := rfl
@[simp] theorem sample_scl_scl (p : Params) (b : Bus) :
    (sample p .scl b).2.scl = ⟨.inPullup, b.scl.latch⟩ := rfl
@[simp] theorem sample_scl_sda (p : Params) (b : Bus) :
    (sample p .scl b).2.sda = b.sda := rfl
@[simp] theorem sample_scl_envScl (p : Params) (b : Bus) :
    (sample p .scl b).2.envScl = (b.envScl.next p.sclPin).2 := rfl
@[simp] theorem sample_scl_envSda (p : Params) (b : Bus) :
    (sample p .scl b).2.envSda = b.envSda := rfl
@[simp] theorem sample_phase (p : Params) (l : Line) (b : Bus) :
    (sample p l b).2.phase = b.phase := by cases l <;> rfl
@[simp] theorem sample_stretchTimedOut (p : Params) (l : Line) (b : Bus) :
    (sample p l b).2.stretchTimedOut = b.stretchTimedOut := by cases l <;> rfl
@[simp] theorem sample_draws (p : Params) (l : Line) (b : Bus) :
    (sample p l b).2.draws = b.draws := by cases l <;> rfl
@[simp] theorem sample_events (p : Params) (l : Line) (b : Bus) :
    (sample p l b).2.events = b.events ++ [.sampled l ((b.env l).next (p.pinOf l)).1] := by
  simp [sample, configureInput]
@[simp] theorem sample_sda_coarse (p : Params) (b : Bus) :
    (sample p .sda b).2.coarse = b.coarse ++ [.sampled .sda (b.envSda.next p.sdaPin).1] := by
  simp [Bus.coarse, Event.isCoarse]
@[simp] theorem sample_scl_coarse (p : Params) (b : Bus) : (sample p .scl b).2.coarse = b.coarse := by
  simp [Bus.coarse, Event.isCoarse]

/-! ### The delays (R73 to R75) -/

@[simp] theorem halfDelay_sda (b : Bus) :
    (halfDelay b).sda = b.sda := rfl
@[simp] theorem halfDelay_scl (b : Bus) :
    (halfDelay b).scl = b.scl := rfl
@[simp] theorem halfDelay_phase (b : Bus) :
    (halfDelay b).phase = b.phase := rfl
@[simp] theorem halfDelay_envSda (b : Bus) :
    (halfDelay b).envSda = b.envSda := rfl
@[simp] theorem halfDelay_envScl (b : Bus) :
    (halfDelay b).envScl = b.envScl := rfl
@[simp] theorem halfDelay_draws (b : Bus) :
    (halfDelay b).draws = b.draws := rfl
@[simp] theorem halfDelay_stretchTimedOut (b : Bus) :
    (halfDelay b).stretchTimedOut = b.stretchTimedOut := rfl
@[simp] theorem halfDelay_events (b : Bus) : (halfDelay b).events = b.events ++ [.half] := by simp [halfDelay]
@[simp] theorem halfDelay_coarse (b : Bus) : (halfDelay b).coarse = b.coarse ++ [.half] := by
  simp [Bus.coarse, Event.isCoarse]

@[simp] theorem pollDelay_sda (b : Bus) :
    (pollDelay b).sda = b.sda := rfl
@[simp] theorem pollDelay_scl (b : Bus) :
    (pollDelay b).scl = b.scl := rfl
@[simp] theorem pollDelay_phase (b : Bus) :
    (pollDelay b).phase = b.phase := rfl
@[simp] theorem pollDelay_envSda (b : Bus) :
    (pollDelay b).envSda = b.envSda := rfl
@[simp] theorem pollDelay_envScl (b : Bus) :
    (pollDelay b).envScl = b.envScl := rfl
@[simp] theorem pollDelay_draws (b : Bus) :
    (pollDelay b).draws = b.draws := rfl
@[simp] theorem pollDelay_stretchTimedOut (b : Bus) :
    (pollDelay b).stretchTimedOut = b.stretchTimedOut := rfl
@[simp] theorem pollDelay_events (b : Bus) : (pollDelay b).events = b.events ++ [.poll] := by simp [pollDelay]
@[simp] theorem pollDelay_coarse (b : Bus) : (pollDelay b).coarse = b.coarse := by
  simp [Bus.coarse, Event.isCoarse]

@[simp] theorem stabilizeWait_sda (b : Bus) :
    (stabilizeWait b).sda = b.sda := rfl
@[simp] theorem stabilizeWait_scl (b : Bus) :
    (stabilizeWait b).scl = b.scl := rfl
@[simp] theorem stabilizeWait_phase (b : Bus) :
    (stabilizeWait b).phase = b.phase := rfl
@[simp] theorem stabilizeWait_envSda (b : Bus) :
    (stabilizeWait b).envSda = b.envSda := rfl
@[simp] theorem stabilizeWait_envScl (b : Bus) :
    (stabilizeWait b).envScl = b.envScl := rfl
@[simp] theorem stabilizeWait_draws (b : Bus) :
    (stabilizeWait b).draws = b.draws := rfl
@[simp] theorem stabilizeWait_stretchTimedOut (b : Bus) :
    (stabilizeWait b).stretchTimedOut = b.stretchTimedOut := rfl
@[simp] theorem stabilizeWait_events (b : Bus) : (stabilizeWait b).events = b.events ++ [.stabilize] := by simp [stabilizeWait]
@[simp] theorem stabilizeWait_coarse (b : Bus) : (stabilizeWait b).coarse = b.coarse ++ [.stabilize] := by
  simp [Bus.coarse, Event.isCoarse]

/-! ### The poll loop and `SclReleaseWait` (spec/41_protocol_primitives.md R80) -/

/-- What the poll loop leaves alone: everything but the clock pin, the answers on the clock line, the trace
and the ghost flag. -/
theorem pollLoop_frame (p : Params) (k : Nat) (b : Bus) :
    (pollLoop p k b).sda = b.sda ∧ (pollLoop p k b).phase = b.phase ∧ (pollLoop p k b).envSda = b.envSda ∧
      (pollLoop p k b).draws = b.draws ∧ (pollLoop p k b).coarse = b.coarse := by
  induction k generalizing b with
  | zero => exact ⟨rfl, rfl, rfl, rfl, rfl⟩
  | succ k ih =>
    unfold pollLoop
    split
    · simp
    · simpa using ih (pollDelay (sample p .scl b).2)

/-- A clock pin that is released stays released while it is polled. -/
theorem pollLoop_scl (p : Params) (k : Nat) (b : Bus) (h : b.scl.mode = .inPullup) : (pollLoop p k b).scl = b.scl := by
  induction k generalizing b with
  | zero => rfl
  | succ k ih =>
    have hp : (⟨.inPullup, b.scl.latch⟩ : Pin) = b.scl := by rw [← h]
    unfold pollLoop
    split
    · simpa using hp
    · rw [ih _ (by simp)]
      simpa using hp

/-- Every poll loop ends (R165): it sees the line low some times and then high, or low every time and then
the ghost flag is set; nothing else is added to the trace. -/
theorem pollLoop_trace (p : Params) (k : Nat) (b : Bus) :
    (∃ j < k, (pollLoop p k b).events =
        b.events ++ (List.replicate j [Event.sampled .scl false, .poll]).flatten ++ [.sampled .scl true] ∧
      (pollLoop p k b).stretchTimedOut = b.stretchTimedOut) ∨
    ((pollLoop p k b).events =
        b.events ++ (List.replicate k [Event.sampled .scl false, .poll]).flatten ∧
      (pollLoop p k b).stretchTimedOut = true) := by
  induction k generalizing b with
  | zero => exact .inr ⟨by simp [pollLoop, Bus.events], rfl⟩
  | succ k ih =>
    unfold pollLoop
    split
    · rename_i h
      exact .inl ⟨0, by omega, by simp_all, by simp⟩
    · rename_i h
      simp only [sample_fst, env_scl, pinOf_scl, Bool.not_eq_true] at h
      rcases ih (pollDelay (sample p .scl b).2) with ⟨j, hj, he, hg⟩ | ⟨he, hg⟩
      · exact .inl ⟨j + 1, by omega, by simp [he, h, List.replicate_succ], by simpa using hg⟩
      · exact .inr ⟨by simp [he, h, List.replicate_succ], hg⟩

/-- With written answers low `j` times and then high, `j` less than the bound (R80 (b)). -/
theorem pollLoop_honoured (p : Params) (j m n : Nat) (rest : List Level) (b : Bus)
    (h : b.envScl = ⟨List.replicate j false ++ true :: rest, n⟩) :
    (pollLoop p (j + 1 + m) b).envScl = ⟨rest, n⟩ ∧
      (pollLoop p (j + 1 + m) b).stretchTimedOut = b.stretchTimedOut ∧
      (pollLoop p (j + 1 + m) b).events =
        b.events ++ (List.replicate j [Event.sampled .scl false, .poll]).flatten ++ [.sampled .scl true] := by
  induction j generalizing b with
  | zero =>
    rw [show 0 + 1 + m = m + 1 by omega]
    simp [pollLoop, h, next_cons]
  | succ j ih =>
    rw [show j + 1 + 1 + m = (j + 1 + m) + 1 by omega]
    have h' : (pollDelay (sample p .scl b).2).envScl = ⟨List.replicate j false ++ true :: rest, n⟩ := by
      simp [h, List.replicate_succ, next_cons]
    obtain ⟨h1, h2, h3⟩ := ih _ h'
    have hf : ((b.envScl).next p.sclPin).1 = false := by simp [h, List.replicate_succ, next_cons]
    unfold pollLoop
    simp [hf, h1, h2, h3, List.replicate_succ]

/-- With written answers low at every poll (R80 (c)). -/
theorem pollLoop_expired (p : Params) (k n : Nat) (rest : List Level) (b : Bus)
    (h : b.envScl = ⟨List.replicate k false ++ rest, n⟩) :
    (pollLoop p k b).envScl = ⟨rest, n⟩ ∧ (pollLoop p k b).stretchTimedOut = true ∧
      (pollLoop p k b).events = b.events ++ (List.replicate k [Event.sampled .scl false, .poll]).flatten := by
  induction k generalizing b with
  | zero => exact ⟨by simpa [pollLoop] using h, rfl, by simp [pollLoop, Bus.events]⟩
  | succ k ih =>
    have h' : (pollDelay (sample p .scl b).2).envScl = ⟨List.replicate k false ++ rest, n⟩ := by
      simp [h, List.replicate_succ, next_cons]
    obtain ⟨h1, h2, h3⟩ := ih _ h'
    have hf : ((b.envScl).next p.sclPin).1 = false := by simp [h, List.replicate_succ, next_cons]
    unfold pollLoop
    simp [hf, h1, h2, h3, List.replicate_succ]

/-- After `SclReleaseWait` the clock pin is released; the data side is untouched. -/
@[simp] theorem sclReleaseWait_scl (p : Params) (b : Bus) :
    (sclReleaseWait p b).scl = ⟨.inPullup, b.scl.latch⟩ := by
  rw [sclReleaseWait, pollLoop_scl _ _ _ (by simp)]
  simp
@[simp] theorem sclReleaseWait_sda (p : Params) (b : Bus) :
    (sclReleaseWait p b).sda = b.sda := by
  simp [sclReleaseWait, pollLoop_frame]
@[simp] theorem sclReleaseWait_phase (p : Params) (b : Bus) :
    (sclReleaseWait p b).phase = b.phase := by
  simp [sclReleaseWait, pollLoop_frame]
@[simp] theorem sclReleaseWait_envSda (p : Params) (b : Bus) :
    (sclReleaseWait p b).envSda = b.envSda := by
  simp [sclReleaseWait, pollLoop_frame]
@[simp] theorem sclReleaseWait_draws (p : Params) (b : Bus) :
    (sclReleaseWait p b).draws = b.draws := by
  simp [sclReleaseWait, pollLoop_frame]
@[simp] theorem sclReleaseWait_coarse (p : Params) (b : Bus) :
    (sclReleaseWait p b).coarse = b.coarse ++ [.floated .scl] := by
  simp [sclReleaseWait, pollLoop_frame]

/-! ### The protocol primitives (R81 to R86) -/

@[simp] theorem releaseSda_sda (b : Bus) :
    (releaseSda b).sda = ⟨.inPullup, b.sda.latch⟩ := by simp [releaseSda]
@[simp] theorem releaseSda_scl (b : Bus) :
    (releaseSda b).scl = b.scl := by simp [releaseSda]
@[simp] theorem releaseSda_phase (b : Bus) :
    (releaseSda b).phase = b.phase := by simp [releaseSda]
@[simp] theorem releaseSda_envSda (b : Bus) :
    (releaseSda b).envSda = b.envSda := by simp [releaseSda]
@[simp] theorem releaseSda_coarse (b : Bus) :
    (releaseSda b).coarse = b.coarse ++ [.floated .sda, .half] := by simp [releaseSda]

@[simp] theorem pullLow_sda_sda (p : Params) (b : Bus) :
    (pullLow p .sda b).sda = ⟨.outLow, false⟩ := rfl
@[simp] theorem pullLow_sda_scl (p : Params) (b : Bus) :
    (pullLow p .sda b).scl = b.scl := rfl
@[simp] theorem pullLow_scl_scl (p : Params) (b : Bus) :
    (pullLow p .scl b).scl = ⟨.outLow, false⟩ := rfl
@[simp] theorem pullLow_scl_sda (p : Params) (b : Bus) :
    (pullLow p .scl b).sda = b.sda := rfl
@[simp] theorem pullLow_phase (p : Params) (l : Line) (b : Bus) :
    (pullLow p l b).phase = b.phase := by simp [pullLow]
@[simp] theorem pullLow_envSda (p : Params) (l : Line) (b : Bus) :
    (pullLow p l b).envSda = b.envSda := by simp [pullLow]
@[simp] theorem pullLow_coarse (p : Params) (l : Line) (b : Bus) :
    (pullLow p l b).coarse = b.coarse ++ [.low l, .half] := by simp [pullLow]

@[simp] theorem clockHigh_sda (p : Params) (b : Bus) :
    (clockHigh p b).sda = b.sda := by simp [clockHigh]
@[simp] theorem clockHigh_scl (p : Params) (b : Bus) :
    (clockHigh p b).scl = ⟨.inPullup, b.scl.latch⟩ := by simp [clockHigh]
@[simp] theorem clockHigh_phase (p : Params) (b : Bus) :
    (clockHigh p b).phase = b.phase := by simp [clockHigh]
@[simp] theorem clockHigh_envSda (p : Params) (b : Bus) :
    (clockHigh p b).envSda = b.envSda := by simp [clockHigh]
@[simp] theorem clockHigh_coarse (p : Params) (b : Bus) :
    (clockHigh p b).coarse = b.coarse ++ [.floated .scl, .half] := by simp [clockHigh]

@[simp] theorem startCondition_sda (p : Params) (b : Bus) :
    (startCondition p b).sda = ⟨.outLow, false⟩ := by simp [startCondition]
@[simp] theorem startCondition_scl (p : Params) (b : Bus) :
    (startCondition p b).scl = ⟨.outLow, false⟩ := by simp [startCondition]
@[simp] theorem startCondition_phase (p : Params) (b : Bus) :
    (startCondition p b).phase = .start := by simp [startCondition]
@[simp] theorem startCondition_envSda (p : Params) (b : Bus) :
    (startCondition p b).envSda = b.envSda := by simp [startCondition]
@[simp] theorem startCondition_coarse (p : Params) (b : Bus) :
    (startCondition p b).coarse = b.coarse ++ startCell := by simp [startCondition, startCell]

@[simp] theorem stopCondition_sda (p : Params) (b : Bus) :
    (stopCondition p b).sda = ⟨.inPullup, false⟩ := by simp [stopCondition]
@[simp] theorem stopCondition_scl (p : Params) (b : Bus) :
    (stopCondition p b).scl = ⟨.inPullup, b.scl.latch⟩ := by simp [stopCondition]
@[simp] theorem stopCondition_phase (p : Params) (b : Bus) :
    (stopCondition p b).phase = .idle := by simp [stopCondition]
@[simp] theorem stopCondition_envSda (p : Params) (b : Bus) :
    (stopCondition p b).envSda = b.envSda := by simp [stopCondition]
@[simp] theorem stopCondition_coarse (p : Params) (b : Bus) :
    (stopCondition p b).coarse = b.coarse ++ stopCell := by simp [stopCondition, stopCell]

@[simp] theorem setData_sda_mode (p : Params) (v : Level) (b : Bus) :
    (setData p v b).sda.mode = if v then .inPullup else .outLow := by
  cases v <;> simp [setData]
@[simp] theorem setData_scl (p : Params) (v : Level) (b : Bus) :
    (setData p v b).scl = b.scl := by cases v <;> simp [setData]
@[simp] theorem setData_phase (p : Params) (v : Level) (b : Bus) :
    (setData p v b).phase = b.phase := by cases v <;> simp [setData]
@[simp] theorem setData_envSda (p : Params) (v : Level) (b : Bus) :
    (setData p v b).envSda = b.envSda := by cases v <;> simp [setData]
@[simp] theorem setData_coarse (p : Params) (v : Level) (b : Bus) :
    (setData p v b).coarse = b.coarse ++ [dataEvent v, .half] := by
  cases v <;> simp [setData, dataEvent]

@[simp] theorem writeBit_sda_mode (p : Params) (v : Level) (b : Bus) :
    (writeBit p v b).sda.mode = if v then .inPullup else .outLow := by simp [writeBit]
@[simp] theorem writeBit_scl (p : Params) (v : Level) (b : Bus) :
    (writeBit p v b).scl = ⟨.outLow, false⟩ := by simp [writeBit]
@[simp] theorem writeBit_phase (p : Params) (v : Level) (b : Bus) :
    (writeBit p v b).phase = b.phase := by simp [writeBit]
@[simp] theorem writeBit_envSda (p : Params) (v : Level) (b : Bus) :
    (writeBit p v b).envSda = b.envSda := by simp [writeBit]
@[simp] theorem writeBit_coarse (p : Params) (v : Level) (b : Bus) :
    (writeBit p v b).coarse = b.coarse ++ writeCell v := by simp [writeBit, writeCell]

@[simp] theorem readBit_fst (p : Params) (b : Bus) :
    (readBit p b).1 = (b.envSda.next p.sdaPin).1 := by simp [readBit]
@[simp] theorem readBit_sda_mode (p : Params) (b : Bus) :
    (readBit p b).2.sda.mode = .inPullup := by simp [readBit]
@[simp] theorem readBit_scl (p : Params) (b : Bus) :
    ((readBit p b).2).scl = ⟨.outLow, false⟩ := by simp [readBit]
@[simp] theorem readBit_phase (p : Params) (b : Bus) :
    ((readBit p b).2).phase = b.phase := by simp [readBit]
@[simp] theorem readBit_envSda (p : Params) (b : Bus) :
    ((readBit p b).2).envSda = (b.envSda.next p.sdaPin).2 := by simp [readBit]
@[simp] theorem readBit_coarse (p : Params) (b : Bus) :
    ((readBit p b).2).coarse = b.coarse ++ readCell (b.envSda.next p.sdaPin).1 := by simp [readBit, readCell]

/-- The eight data cells of a sent byte. -/
theorem writeBits_spec (p : Params) (v : Byte) (b : Bus) :
    (writeBits p v b).scl = ⟨.outLow, false⟩ ∧ (writeBits p v b).phase = b.phase ∧
      (writeBits p v b).envSda = b.envSda ∧
      (writeBits p v b).coarse = b.coarse ++ (msbFirst v).flatMap writeCell := by
  simp [writeBits, bitOrder, msbFirst, BitVec.getLsbD_eq_getElem]

@[simp] theorem writeByte_fst (p : Params) (role : ByteRole) (v : Byte) (b : Bus) :
    (writeByte p role v b).1 = !(b.envSda.next p.sdaPin).1 := by
  simp [writeByte, ackedBy, writeBits_spec]
@[simp] theorem writeByte_sda_mode (p : Params) (role : ByteRole) (v : Byte) (b : Bus) :
    (writeByte p role v b).2.sda.mode = .inPullup := by simp [writeByte]
@[simp] theorem writeByte_scl (p : Params) (role : ByteRole) (v : Byte) (b : Bus) :
    ((writeByte p role v b).2).scl = ⟨.outLow, false⟩ := by simp [writeByte, writeBits_spec]
@[simp] theorem writeByte_phase (p : Params) (role : ByteRole) (v : Byte) (b : Bus) :
    ((writeByte p role v b).2).phase = .ackOrNack := by simp [writeByte, writeBits_spec]
@[simp] theorem writeByte_envSda (p : Params) (role : ByteRole) (v : Byte) (b : Bus) :
    ((writeByte p role v b).2).envSda = (b.envSda.next p.sdaPin).2 := by simp [writeByte, writeBits_spec]
@[simp] theorem writeByte_coarse (p : Params) (role : ByteRole) (v : Byte) (b : Bus) :
    ((writeByte p role v b).2).coarse = b.coarse ++ sentByte (b.envSda.next p.sdaPin).1 v := by simp [writeByte, writeBits_spec, sentByte]

/-- The next `n` answers on the data line and what is left of them. -/
def takeAnswers (pin : Nat) : Nat → EnvStream → List Level × EnvStream
  | 0, e => ([], e)
  | n + 1, e =>
    ((e.next pin).1 :: (takeAnswers pin n (e.next pin).2).1, (takeAnswers pin n (e.next pin).2).2)

/-- A byte from eight bits, the first one most significant (spec/41_protocol_primitives.md R86). -/
def byteOfBits (bits : List Level) : Byte := bits.foldl shiftIn 0

/-- Bits shifted in one after another are the bits of the byte, most significant first. -/
theorem msbFirst_byteOfBits (b7 b6 b5 b4 b3 b2 b1 b0 : Level) :
    msbFirst (byteOfBits [b7, b6, b5, b4, b3, b2, b1, b0]) = [b7, b6, b5, b4, b3, b2, b1, b0] := by
  revert b7 b6 b5 b4 b3 b2 b1 b0
  decide

/-- The bits of a byte, most significant first, shifted in, are the byte. -/
theorem byteOfBits_msbFirst (v : Byte) : byteOfBits (msbFirst v) = v := by
  revert v
  decide

/-- Written answers are taken in order. -/
theorem takeAnswers_append (pin : Nat) (bits rest : List Level) (n : Nat) :
    takeAnswers pin bits.length ⟨bits ++ rest, n⟩ = (bits, ⟨rest, n⟩) := by
  induction bits with
  | nil => rfl
  | cons v bits ih => simp [takeAnswers, next_cons, ih]

/-- The eight data cells of a received byte. -/
theorem readBits_spec (p : Params) (b : Bus) :
    (readBits p b).1 = byteOfBits (takeAnswers p.sdaPin 8 b.envSda).1 ∧
      (readBits p b).2.scl = ⟨.outLow, false⟩ ∧ (readBits p b).2.phase = b.phase ∧
      (readBits p b).2.envSda = (takeAnswers p.sdaPin 8 b.envSda).2 ∧
      (readBits p b).2.coarse = b.coarse ++ (msbFirst (readBits p b).1).flatMap readCell := by
  have h1 : (readBits p b).1 = byteOfBits (takeAnswers p.sdaPin 8 b.envSda).1 := by
    simp [readBits, bitOrder, takeAnswers, byteOfBits]
  refine ⟨h1, ?_, ?_, ?_, ?_⟩
  · simp [readBits, bitOrder]
  · simp [readBits, bitOrder]
  · simp [readBits, bitOrder, takeAnswers]
  · rw [h1]
    simp only [takeAnswers, msbFirst_byteOfBits]
    simp [readBits, bitOrder]

@[simp] theorem readByte_fst (p : Params) (ack : Bool) (b : Bus) :
    (readByte p ack b).1 = byteOfBits (takeAnswers p.sdaPin 8 b.envSda).1 := by
  simp [readByte, readBits_spec]
@[simp] theorem readByte_sda_mode (p : Params) (ack : Bool) (b : Bus) :
    (readByte p ack b).2.sda.mode = if ack then .outLow else .inPullup := by
  cases ack <;> simp [readByte, ackLevel]
@[simp] theorem readByte_scl (p : Params) (ack : Bool) (b : Bus) :
    ((readByte p ack b).2).scl = ⟨.outLow, false⟩ := by simp [readByte, readBits_spec]
@[simp] theorem readByte_phase (p : Params) (ack : Bool) (b : Bus) :
    ((readByte p ack b).2).phase = .ackOrNack := by simp [readByte, readBits_spec]
@[simp] theorem readByte_envSda (p : Params) (ack : Bool) (b : Bus) :
    ((readByte p ack b).2).envSda = (takeAnswers p.sdaPin 8 b.envSda).2 := by simp [readByte, readBits_spec]

@[simp] theorem readByte_coarse (p : Params) (ack : Bool) (b : Bus) :
    (readByte p ack b).2.coarse =
      b.coarse ++ receivedByte (!ack) (byteOfBits (takeAnswers p.sdaPin 8 b.envSda).1) := by
  simp [readByte, receivedByte, ackLevel, readBits_spec]

end Sys2Proof.Laws
end

