-- ==== Sys2Proof/Laws/Transactions.lean ====
section
/-! SUPPORT. The transactions built from the protocol primitives: what they leave, and the induction over
everything the engine does on the pins, packaged once. -/

namespace Sys2Proof.Laws

open Sys2Proof.Machine

/-! ### The transactions as equations -/

theorem sendBytes_cons (p : Params) (v : Byte) (rest : List Byte) (b : Bus) :
    sendBytes p (v :: rest) b =
      if (writeByte p .data v b).1 then sendBytes p rest (writeByte p .data v b).2
      else (.dataNack, (writeByte p .data v b).2) := rfl

/-- The address byte of a transaction, after `Start`. -/
def addressSent (p : Params) (a : Addr) (d : Direction) (b : Bus) : Bool × Bus :=
  writeByte p .address (addrByte a d) (startCondition p b)

@[simp] theorem addressSent_fst (p : Params) (a : Addr) (d : Direction) (b : Bus) :
    (addressSent p a d b).1 = !(b.envSda.next p.sdaPin).1 := by simp [addressSent]

@[simp] theorem addressSent_envSda (p : Params) (a : Addr) (d : Direction) (b : Bus) :
    (addressSent p a d b).2.envSda = (b.envSda.next p.sdaPin).2 := by simp [addressSent]

@[simp] theorem addressSent_coarse (p : Params) (a : Addr) (d : Direction) (b : Bus) :
    (addressSent p a d b).2.coarse =
      b.coarse ++ startCell ++ sentByte (b.envSda.next p.sdaPin).1 (addrByte a d) := by simp [addressSent]

theorem writeTransaction_eq (p : Params) (a : Addr) (data : List Byte) (b : Bus) :
    writeTransaction p a data b =
      if (addressSent p a .write b).1 then
        ((sendBytes p data (addressSent p a .write b).2).1,
          stopCondition p (sendBytes p data (addressSent p a .write b).2).2)
      else (.addrNack, stopCondition p (addressSent p a .write b).2) := by
  have hdef : writeTransaction p a data b =
      (let q := if (addressSent p a .write b).1 then sendBytes p data (addressSent p a .write b).2
        else (.addrNack, (addressSent p a .write b).2)
      (q.1, stopCondition p q.2)) := rfl
  rw [hdef]
  split <;> rfl

theorem readTransaction_eq (p : Params) (a : Addr) (n : Nat) (rx : Vector Byte 32) (b : Bus) :
    readTransaction p a n rx b =
      if (addressSent p a .read b).1 then
        ⟨true, (receiveBytes p n rx (addressSent p a .read b).2).1,
          stopCondition p (receiveBytes p n rx (addressSent p a .read b).2).2⟩
      else ⟨false, rx, stopCondition p (addressSent p a .read b).2⟩ := rfl

/-- The bytes received by the loop of `REQUEST_FROM` when it has reached index `k` of `n`. -/
def receivedUpto (p : Params) (n : Nat) (rx : Vector Byte 32) (b : Bus) (k : Nat) :
    Vector Byte 32 × Bus :=
  (List.range k).foldl
    (fun acc i =>
      (acc.1.setIfInBounds i (readByte p (decide (i < n - 1)) acc.2).1,
        (readByte p (decide (i < n - 1)) acc.2).2)) (rx, b)

theorem receiveBytes_eq (p : Params) (n : Nat) (rx : Vector Byte 32) (b : Bus) :
    receiveBytes p n rx b = receivedUpto p n rx b n := rfl

@[simp] theorem receivedUpto_zero (p : Params) (n : Nat) (rx : Vector Byte 32) (b : Bus) :
    receivedUpto p n rx b 0 = (rx, b) := rfl

theorem receivedUpto_succ (p : Params) (n : Nat) (rx : Vector Byte 32) (b : Bus) (k : Nat) :
    receivedUpto p n rx b (k + 1) =
      ((receivedUpto p n rx b k).1.setIfInBounds k
          (readByte p (decide (k < n - 1)) (receivedUpto p n rx b k).2).1,
        (readByte p (decide (k < n - 1)) (receivedUpto p n rx b k).2).2) := by
  simp [receivedUpto, List.range_succ, List.foldl_append]

/-! ### Relations that hold along everything the engine does

`n` counts clock releases. A relation that holds of the basic operations holds of every composite one. -/

/-- Closed under everything inside one cell: no change of `PHASE`. -/
structure CellClosed (p : Params) (R : Nat → Bus → Bus → Prop) : Prop where
  refl : ∀ b, R 0 b b
  trans : ∀ {m n a b c}, R m a b → R n b c → R (m + n) a c
  driveLow : ∀ l b, R 0 b (driveLow p l b)
  releaseSda : ∀ b, R 0 b (release .sda b)
  sampleSda : ∀ b, R 0 b (sample p .sda b).2
  halfDelay : ∀ b, R 0 b (halfDelay b)
  sclReleaseWait : ∀ b, R 1 b (sclReleaseWait p b)

/-- Closed under everything a transaction does. -/
structure Closed (p : Params) (R : Nat → Bus → Bus → Prop) : Prop extends CellClosed p R where
  setPhase : ∀ q b, R 0 b (b.setPhase q)

section
variable {p : Params} {R : Nat → Bus → Bus → Prop}

theorem CellClosed.pullLow (h : CellClosed p R) (l : Line) (b : Bus) : R 0 b (pullLow p l b) :=
  h.trans (h.driveLow l b) (h.halfDelay _)

theorem CellClosed.clockHigh (h : CellClosed p R) (b : Bus) : R 1 b (clockHigh p b) :=
  h.trans (h.sclReleaseWait b) (h.halfDelay _)

theorem CellClosed.floatSda (h : CellClosed p R) (b : Bus) : R 0 b (Machine.releaseSda b) :=
  h.trans (h.releaseSda b) (h.halfDelay _)

theorem CellClosed.setData (h : CellClosed p R) (v : Level) (b : Bus) : R 0 b (setData p v b) := by
  cases v
  · exact h.pullLow _ b
  · exact h.floatSda b

theorem CellClosed.writeBit (h : CellClosed p R) (v : Level) (b : Bus) : R 1 b (writeBit p v b) :=
  h.trans (m := 0 + 1) (n := 0) (h.trans (h.setData v b) (h.clockHigh _)) (h.pullLow _ _)

theorem CellClosed.readBit (h : CellClosed p R) (b : Bus) : R 1 b (readBit p b).2 :=
  h.trans (m := 1) (n := 0)
    (h.trans (m := 0 + 1) (n := 0) (h.trans (h.floatSda b) (h.clockHigh _)) (h.sampleSda _))
    (h.pullLow _ _)

theorem CellClosed.writeBits (h : CellClosed p R) (v : Byte) (b : Bus) : R 8 b (writeBits p v b) := by
  have aux : ∀ (l : List Nat) (c : Bus),
      R l.length c (l.foldl (fun b i => Machine.writeBit p (v.getLsbD i) b) c) := by
    intro l
    induction l with
    | nil => exact fun c => h.refl c
    | cons i l ih =>
      intro c
      have := h.trans (h.writeBit (v.getLsbD i) c) (ih _)
      rwa [Nat.add_comm] at this
  exact aux bitOrder b

theorem CellClosed.readBits (h : CellClosed p R) (b : Bus) : R 8 b (readBits p b).2 := by
  have aux : ∀ (l : List Nat) (acc : Byte × Bus),
      R l.length acc.2
        (l.foldl (fun acc (_ : Nat) =>
          (shiftIn acc.1 (Machine.readBit p acc.2).1, (Machine.readBit p acc.2).2)) acc).2 := by
    intro l
    induction l with
    | nil => exact fun acc => h.refl acc.2
    | cons i l ih =>
      intro acc
      have := h.trans (h.readBit acc.2) (ih (shiftIn acc.1 (Machine.readBit p acc.2).1, _))
      rwa [Nat.add_comm] at this
  exact aux bitOrder (0, b)

theorem Closed.startCondition (h : Closed p R) (b : Bus) : R 1 b (startCondition p b) :=
  h.trans (m := 1) (n := 0)
    (h.trans (m := 0 + 1) (n := 0)
      (h.trans (m := 0 + 0) (h.trans (h.setPhase .start b) (h.floatSda _)) (h.clockHigh _))
      (h.pullLow _ _))
    (h.pullLow _ _)

theorem Closed.stopCondition (h : Closed p R) (b : Bus) : R 1 b (stopCondition p b) :=
  h.trans (m := 1) (n := 0)
    (h.trans (m := 0 + 1) (n := 0)
      (h.trans (m := 0 + 0) (h.trans (h.setPhase .stop b) (h.pullLow _ _)) (h.clockHigh _))
      (h.floatSda _))
    (h.setPhase _ _)

theorem Closed.writeByte (h : Closed p R) (role : ByteRole) (v : Byte) (b : Bus) :
    R 9 b (writeByte p role v b).2 :=
  h.trans (m := 8) (n := 1)
    (h.trans (m := 0 + 8) (n := 0)
      (h.trans (h.setPhase (rolePhase role) b) (h.writeBits v _)) (h.setPhase .ackOrNack _))
    (h.readBit _)

theorem Closed.readByte (h : Closed p R) (ack : Bool) (b : Bus) : R 9 b (readByte p ack b).2 :=
  h.trans (m := 8) (n := 1)
    (h.trans (m := 0 + 8) (n := 0)
      (h.trans (h.setPhase .dataByte b) (h.readBits _)) (h.setPhase .ackOrNack _))
    (h.writeBit _ _)

/-- The data bytes that were sent, by the status: all of them, or those up to the unacknowledged one. -/
theorem Closed.sendBytes (h : Closed p R) (data : List Byte) (b : Bus) :
    ∃ k ≤ data.length, R (9 * k) b (sendBytes p data b).2 := by
  induction data generalizing b with
  | nil => exact ⟨0, Nat.le_refl _, h.refl b⟩
  | cons v rest ih =>
    rw [sendBytes_cons]
    split
    · obtain ⟨k, hk, hr⟩ := ih (Machine.writeByte p .data v b).2
      refine ⟨k + 1, by simpa using hk, ?_⟩
      have := h.trans (h.writeByte .data v b) hr
      rwa [show 9 + 9 * k = 9 * (k + 1) by omega] at this
    · exact ⟨1, by simp, h.writeByte .data v b⟩

theorem Closed.addressSent (h : Closed p R) (a : Addr) (d : Direction) (b : Bus) :
    R 10 b (addressSent p a d b).2 :=
  h.trans (h.startCondition b) (h.writeByte .address (addrByte a d) _)

theorem Closed.writeTransaction (h : Closed p R) (a : Addr) (data : List Byte) (b : Bus) :
    ∃ k ≤ data.length, R (2 + 9 * (k + 1)) b (writeTransaction p a data b).2 := by
  rw [writeTransaction_eq]
  split
  · obtain ⟨k, hk, hr⟩ := h.sendBytes data (Laws.addressSent p a .write b).2
    refine ⟨k, hk, ?_⟩
    have := h.trans (h.trans (h.addressSent a .write b) hr) (h.stopCondition _)
    rwa [show 10 + 9 * k + 1 = 2 + 9 * (k + 1) by omega] at this
  · exact ⟨0, Nat.zero_le _, h.trans (m := 10) (n := 1) (h.addressSent a .write b) (h.stopCondition _)⟩

theorem Closed.receivedUpto (h : Closed p R) (n : Nat) (rx : Vector Byte 32) (b : Bus) (k : Nat) :
    R (9 * k) b (receivedUpto p n rx b k).2 := by
  induction k with
  | zero => exact h.refl b
  | succ k ih =>
    rw [receivedUpto_succ]
    have := h.trans ih (h.readByte (decide (k < n - 1)) _)
    rwa [show 9 * k + 9 = 9 * (k + 1) by omega] at this

theorem Closed.readTransaction (h : Closed p R) (a : Addr) (n : Nat) (rx : Vector Byte 32) (b : Bus) :
    ∃ k ≤ n, R (2 + 9 * (k + 1)) b (readTransaction p a n rx b).bus := by
  rw [readTransaction_eq]
  split
  · refine ⟨n, Nat.le_refl _, ?_⟩
    have := h.trans (h.trans (h.addressSent a .read b) (h.receivedUpto n rx _ n)) (h.stopCondition _)
    rwa [show 10 + 9 * n + 1 = 2 + 9 * (n + 1) by omega] at this
  · exact ⟨0, Nat.zero_le _, h.trans (m := 10) (n := 1) (h.addressSent a .read b) (h.stopCondition _)⟩

end

/-! ### What the data bytes and the transactions do -/

/-- The data bytes of `END_TX`: what they put on the pins, by the status (spec/30_encoding.md R54). -/
theorem sendBytes_spec (p : Params) (data : List Byte) (b : Bus) :
    ((sendBytes p data b).1 = .ok ∧
      (sendBytes p data b).2.coarse = b.coarse ++ data.flatMap (sentByte false)) ∨
    ((sendBytes p data b).1 = .dataNack ∧ ∃ before v after, data = before ++ v :: after ∧
      (sendBytes p data b).2.coarse =
        b.coarse ++ before.flatMap (sentByte false) ++ sentByte true v) := by
  induction data generalizing b with
  | nil => exact .inl ⟨rfl, by simp [sendBytes]⟩
  | cons v rest ih =>
    rw [sendBytes_cons]
    split
    · rename_i hack
      simp only [writeByte_fst, Bool.not_eq_true'] at hack
      rcases ih (writeByte p .data v b).2 with ⟨h1, h2⟩ | ⟨h1, before, u, after, h3, h4⟩
      · exact .inl ⟨h1, by simp [h2, hack]⟩
      · exact .inr ⟨h1, v :: before, u, after, by simp [h3], by simp [h4, hack]⟩
    · rename_i hack
      simp only [writeByte_fst, Bool.not_eq_true', Bool.not_eq_false] at hack
      exact .inr ⟨rfl, [], v, rest, rfl, by simp [hack]⟩

/-- Which status the data bytes end with, by the acknowledge answers written for them; no answer after the
deciding one is taken (spec/60_exceptions.md R127). -/
theorem sendBytes_acks (p : Params) (data : List Byte) (b : Bus) (rest : List Level) (n : Nat) :
    (∀ j < data.length, b.envSda = ⟨List.replicate j false ++ true :: rest, n⟩ →
      (sendBytes p data b).1 = .dataNack ∧ (sendBytes p data b).2.envSda = ⟨rest, n⟩) ∧
    (b.envSda = ⟨List.replicate data.length false ++ rest, n⟩ →
      (sendBytes p data b).1 = .ok ∧ (sendBytes p data b).2.envSda = ⟨rest, n⟩) := by
  induction data generalizing b with
  | nil => simp [sendBytes]
  | cons v data ih =>
    have hnext : ∀ tail, b.envSda = ⟨false :: tail, n⟩ →
        (writeByte p .data v b).2.envSda = ⟨tail, n⟩ := by
      intro tail h
      simp [h, next_cons]
    constructor
    · intro j hj h
      rw [sendBytes_cons]
      cases j with
      | zero =>
        simp only [List.replicate_zero, List.nil_append] at h
        simp [h, next_cons]
      | succ j =>
        have := (ih (writeByte p .data v b).2).1 j (by simpa using hj) (hnext _ h)
        simp [h, List.replicate_succ, next_cons, this]
    · intro h
      rw [sendBytes_cons]
      have := (ih (writeByte p .data v b).2).2 (hnext _ h)
      simp [h, List.replicate_succ, next_cons, this]

/-- The loop of `REQUEST_FROM` up to index `k`: the cells below `k` hold the bytes whose frames are on the
pins, the others are untouched (spec/20_memory.md R33). -/
theorem receivedUpto_spec (p : Params) (n : Nat) (rx : Vector Byte 32) (b : Bus) (k : Nat) (hk : k ≤ 32) :
    (∀ j, k ≤ j → (receivedUpto p n rx b k).1[j]? = rx[j]?) ∧
      (receivedUpto p n rx b k).2.coarse = b.coarse ++
        (List.range k).flatMap
          (fun i => receivedByte (!decide (i < n - 1)) ((receivedUpto p n rx b k).1[i]?.getD 0)) := by
  induction k with
  | zero => simp
  | succ k ih =>
    obtain ⟨h1, h2⟩ := ih (by omega)
    rw [receivedUpto_succ]
    constructor
    · intro j hj
      simpa [Vector.getElem?_setIfInBounds, show k ≠ j by omega] using h1 j (by omega)
    · have hcells : ∀ i ∈ List.range k, ∀ v,
          ((receivedUpto p n rx b k).1.setIfInBounds k v)[i]? = (receivedUpto p n rx b k).1[i]? := by
        intro i hi v
        have hi' : i < k := by simpa using hi
        simp [show k ≠ i by omega]
      simp only [readByte_coarse, readByte_fst, h2, List.range_succ, List.flatMap_append, List.append_assoc,
        List.append_cancel_left_eq]
      congr 1
      · exact List.flatMap_congr fun i hi => by rw [hcells i hi]
      · simp [Vector.getElem?_setIfInBounds, show k < 32 by omega]

/-- When the bits of some bytes are the answers, exactly these bytes are received
(spec/41_protocol_primitives.md R86, spec/20_memory.md R33). -/
theorem receivedUpto_answers (p : Params) (m : Nat) (rx : Vector Byte 32) (b : Bus) (bytes : List Byte)
    (rest : List Level) (n : Nat) (hl : bytes.length ≤ 32)
    (h : b.envSda = ⟨bytes.flatMap msbFirst ++ rest, n⟩) :
    (receivedUpto p m rx b bytes.length).1.toList.take bytes.length = bytes ∧
      (receivedUpto p m rx b bytes.length).2.envSda = ⟨rest, n⟩ := by
  induction bytes using List.reverseRecOn generalizing rest with
  | nil => simpa using h
  | append_singleton bytes v ih =>
    have hl' : bytes.length < 32 := by simpa using hl
    obtain ⟨h1, h2⟩ := ih (msbFirst v ++ rest) (by omega) (by simpa using h)
    have ht : takeAnswers p.sdaPin 8 ⟨msbFirst v ++ rest, n⟩ = (msbFirst v, ⟨rest, n⟩) :=
      takeAnswers_append p.sdaPin (msbFirst v) rest n
    rw [List.length_append, List.length_singleton, receivedUpto_succ]
    constructor
    · rw [List.take_add_one]
      simp [h2, ht, byteOfBits_msbFirst, hl', List.take_set_of_le, h1]
    · simp [h2, ht]

/-- The data bytes depend on nothing but the answers on the data line
(spec/41_protocol_primitives.md R90). -/
theorem sendBytes_same_answers (p q : Params) (hp : p.sdaPin = q.sdaPin) (data : List Byte) (b c : Bus)
    (h : b.envSda = c.envSda) :
    (sendBytes p data b).1 = (sendBytes q data c).1 ∧
      (sendBytes p data b).2.envSda = (sendBytes q data c).2.envSda ∧
      ∃ es, (sendBytes p data b).2.coarse = b.coarse ++ es ∧
        (sendBytes q data c).2.coarse = c.coarse ++ es := by
  induction data generalizing b c with
  | nil => exact ⟨rfl, h, [], by simp [sendBytes], by simp [sendBytes]⟩
  | cons v data ih =>
    rw [sendBytes_cons, sendBytes_cons]
    simp only [writeByte_fst, h, hp]
    split
    · obtain ⟨h1, h2, es, h3, h4⟩ := ih (writeByte p .data v b).2 (writeByte q .data v c).2 (by simp [h, hp])
      exact ⟨h1, h2, sentByte (c.envSda.next q.sdaPin).1 v ++ es, by simp [h3, h, hp], by simp [h4]⟩
    · exact ⟨rfl, by simp [h, hp], sentByte (c.envSda.next q.sdaPin).1 v, by simp [h, hp], by simp⟩

/-- The receiving loop depends on nothing but the answers on the data line (R90). -/
theorem receivedUpto_same_answers (p q : Params) (hp : p.sdaPin = q.sdaPin) (n : Nat) (rx : Vector Byte 32)
    (b c : Bus) (k : Nat) (h : b.envSda = c.envSda) :
    (receivedUpto p n rx b k).1 = (receivedUpto q n rx c k).1 ∧
      (receivedUpto p n rx b k).2.envSda = (receivedUpto q n rx c k).2.envSda ∧
      ∃ es, (receivedUpto p n rx b k).2.coarse = b.coarse ++ es ∧
        (receivedUpto q n rx c k).2.coarse = c.coarse ++ es := by
  induction k with
  | zero => exact ⟨rfl, h, [], by simp, by simp⟩
  | succ k ih =>
    obtain ⟨h1, h2, es, h3, h4⟩ := ih
    exact ⟨by simp [receivedUpto_succ, h1, h2, hp], by simp [receivedUpto_succ, h2, hp], _,
      by simp [receivedUpto_succ, h3, h2, hp]; rfl, by simp [receivedUpto_succ, h4]⟩

end Sys2Proof.Laws
end

