-- ==== Sys2Proof/Laws/Trace.lean ====
section
/-! SUPPORT. What everything the engine does adds to the trace: it only appends, it appends a bounded number
of polls for each clock release, and it drives a line high only in the transient of `DriveLow`. -/

namespace Sys2Proof.Laws

open Sys2Proof.Machine

/-- `c` was reached from `b` by appending `es` to the pin events. -/
def Added (b c : Bus) (es : List Event) : Prop := c.events = b.events ++ es

theorem Added.refl (b : Bus) : Added b b [] := by simp [Added]

theorem Added.trans {a b c : Bus} {es fs : List Event} (h : Added a b es) (g : Added b c fs) :
    Added a c (es ++ fs) := by
  unfold Added at *
  rw [g, h, List.append_assoc]

/-- The events a bus shows beyond those of an earlier bus. -/
theorem Added.drop {b c : Bus} {es : List Event} (h : Added b c es) :
    c.events.drop b.events.length = es := by
  rw [h, List.drop_left]

theorem trace_prefix_emit (b : Bus) (e : Event) : b.trace <+: (b.emit e).trace := ⟨[⟨b.phase, e⟩], rfl⟩

theorem trace_prefix_driveLow (p : Params) (l : Line) (b : Bus) : b.trace <+: (driveLow p l b).trace := by
  refine List.IsPrefix.trans ?_ (trace_prefix_emit _ _)
  rw [setPin_trace]
  refine List.IsPrefix.trans ?_ (trace_prefix_emit _ _)
  rw [setPin_trace]

theorem trace_prefix_release (l : Line) (b : Bus) : b.trace <+: (release l b).trace := by
  refine List.IsPrefix.trans ?_ (trace_prefix_emit _ _)
  rw [configureInput, setPin_trace]

theorem trace_prefix_sample (p : Params) (l : Line) (b : Bus) : b.trace <+: (sample p l b).2.trace := by
  refine List.IsPrefix.trans ?_ (trace_prefix_emit _ _)
  rw [setEnv_trace, configureInput, setPin_trace]

theorem trace_prefix_pollLoop (p : Params) (k : Nat) (b : Bus) : b.trace <+: (pollLoop p k b).trace := by
  induction k generalizing b with
  | zero => exact List.prefix_refl _
  | succ k ih =>
    unfold pollLoop
    split
    · exact trace_prefix_sample p _ b
    · exact (trace_prefix_sample p _ b).trans ((trace_prefix_emit _ _).trans (ih _))

/-- The trace is only appended to (spec/20_memory.md R41: events happen in one order). -/
theorem closed_trace_prefix (p : Params) : Closed p (fun _ b c => b.trace <+: c.trace) where
  refl _ := List.prefix_refl _
  trans h g := h.trans g
  driveLow l b := trace_prefix_driveLow p l b
  releaseSda b := trace_prefix_release _ b
  sampleSda b := trace_prefix_sample p _ b
  halfDelay b := trace_prefix_emit b _
  sclReleaseWait b := (trace_prefix_release _ b).trans (trace_prefix_pollLoop p _ _)
  setPhase _ _ := List.prefix_refl _

/-- What `SclReleaseWait` adds to the pin events (spec/41_protocol_primitives.md R80). -/
theorem sclReleaseWait_added (p : Params) (b : Bus) :
    (∃ j < p.stretchMaxPolls, Added b (sclReleaseWait p b) (stretchHonoured j) ∧
      (sclReleaseWait p b).stretchTimedOut = b.stretchTimedOut) ∨
    (Added b (sclReleaseWait p b) (stretchExpired p.stretchMaxPolls) ∧
      (sclReleaseWait p b).stretchTimedOut = true) := by
  rcases pollLoop_trace p p.stretchMaxPolls (release .scl b) with ⟨j, hj, h1, h2⟩ | ⟨h1, h2⟩
  · exact .inl ⟨j, hj, by simp [Added, sclReleaseWait, h1, stretchHonoured], by simp [sclReleaseWait, h2]⟩
  · exact .inr ⟨by simp [Added, sclReleaseWait, h1, stretchExpired], by simp [sclReleaseWait, h2]⟩

/-- A relation on the events that were added is closed when it holds of what the basic operations add. -/
theorem closed_added (p : Params) (P : Nat → List Event → Prop) (hnil : P 0 [])
    (happ : ∀ m n es fs, P m es → P n fs → P (m + n) (es ++ fs))
    (hlow : ∀ l b, P 0 [.latchOut l (latchOnConfig p l b), .low l])
    (hfloat : P 0 [.floated .sda]) (hsample : ∀ v, P 0 [.sampled .sda v]) (hhalf : P 0 [.half])
    (honoured : ∀ j < p.stretchMaxPolls, P 1 (stretchHonoured j))
    (expired : P 1 (stretchExpired p.stretchMaxPolls)) :
    Closed p (fun n b c => ∃ es, Added b c es ∧ P n es) where
  refl b := ⟨[], Added.refl b, hnil⟩
  trans := by
    rintro m n a b c ⟨es, h1, h2⟩ ⟨fs, g1, g2⟩
    exact ⟨es ++ fs, h1.trans g1, happ _ _ _ _ h2 g2⟩
  driveLow l b := ⟨_, driveLow_events p l b, hlow l b⟩
  releaseSda b := ⟨_, release_events .sda b, hfloat⟩
  sampleSda b := ⟨_, sample_events p .sda b, hsample _⟩
  halfDelay b := ⟨_, halfDelay_events b, hhalf⟩
  sclReleaseWait b := by
    rcases sclReleaseWait_added p b with ⟨j, hj, h, -⟩ | ⟨h, -⟩
    · exact ⟨_, h, honoured j hj⟩
    · exact ⟨_, h, expired⟩
  setPhase _ b := ⟨[], by simp [Added], hnil⟩

theorem clockWaits_nil (k : Nat) : ClockWaits k [] := ⟨[], rfl, by simp⟩

theorem clockWaits_append {k : Nat} {es fs : List Event} (h : ClockWaits k es) (g : ClockWaits k fs) :
    ClockWaits k (es ++ fs) := by
  obtain ⟨ps, rfl, hp⟩ := h
  obtain ⟨qs, rfl, hq⟩ := g
  exact ⟨ps ++ qs, by simp, fun p hm => (List.mem_append.1 hm).elim (hp p) (hq p)⟩

theorem clockWaits_single {k : Nat} {e : Event} (h1 : e ≠ .floated .scl) (h2 : e ≠ .poll)
    (h3 : ∀ v, e ≠ .sampled .scl v) : ClockWaits k [e] :=
  ⟨[[e]], rfl, fun _ hm => .inr (.inr ⟨e, List.mem_singleton.1 hm, h1, h2, h3⟩)⟩

/-- Along a transaction the clock line is released, sampled and polled only by `SclReleaseWait`
(spec/41_protocol_primitives.md R80, R89). -/
theorem closed_waits (p : Params) : Closed p (fun _ b c => ∃ es, Added b c es ∧
    ClockWaits p.stretchMaxPolls es) := by
  refine closed_added p (fun _ => ClockWaits p.stretchMaxPolls) (clockWaits_nil _)
    (fun _ _ _ _ h g => clockWaits_append h g) ?_ (clockWaits_single (by simp) (by simp) (by simp))
    (fun _ => clockWaits_single (by simp) (by simp) (by simp)) (clockWaits_single (by simp) (by simp) (by simp)) ?_ ?_
  · intro l b
    exact clockWaits_append (es := [_]) (fs := [_]) (clockWaits_single (by simp) (by simp) (by simp))
      (clockWaits_single (by simp) (by simp) (by simp))
  · intro j hj
    exact ⟨[stretchHonoured j], by simp, fun q hq => .inl ⟨j, hj, List.mem_singleton.1 hq⟩⟩
  · exact ⟨[stretchExpired _], by simp, fun q hq => .inr (.inl (List.mem_singleton.1 hq))⟩

theorem count_poll_stretch (j : Nat) :
    (List.replicate j [Event.sampled .scl false, .poll]).flatten.count .poll = j := by
  induction j with
  | zero => rfl
  | succ j ih => simp [List.replicate_succ, ih]

theorem count_release_stretch (j : Nat) :
    (List.replicate j [Event.sampled .scl false, .poll]).flatten.count (.floated .scl) = 0 := by
  induction j with
  | zero => rfl
  | succ j ih => simp [List.replicate_succ, ih]

/-- Each clock release is one event and polls at most `STRETCH_MAX_POLLS` times
(spec/70_reset_and_hazards.md R165). -/
theorem closed_polls (p : Params) : Closed p (fun n b c => ∃ es, Added b c es ∧
    es.count .poll ≤ n * p.stretchMaxPolls ∧ es.count (.floated .scl) = n) := by
  refine closed_added p _ (by simp) ?_ (by simp) (by simp) (by simp) (by simp) ?_ ?_
  · rintro m n es fs ⟨h1, h2⟩ ⟨g1, g2⟩
    simp only [List.count_append, Nat.add_mul]
    omega
  · intro j hj
    simp only [stretchHonoured, List.count_append, count_poll_stretch, count_release_stretch]
    simp
    omega
  · simp only [stretchExpired, List.count_append, count_poll_stretch, count_release_stretch]
    simp

/-- Nothing but the transient of `DriveLow` drives a line high, and not when the latch starts low
(spec/40_line_primitives.md R70, R76). -/
theorem closed_never_high (p : Params) (hp : p.outLatch = .low) : Closed p (fun _ b c => ∃ es, Added b c es ∧
    ∀ e ∈ es, e.drivesHigh = false) := by
  have hflat : ∀ j, ∀ e ∈ (List.replicate j [Event.sampled .scl false, .poll]).flatten,
      e.drivesHigh = false := by
    intro j e he
    simp only [List.mem_flatten, List.mem_replicate] at he
    obtain ⟨l, ⟨-, rfl⟩, he⟩ := he
    rcases List.mem_pair.1 he with rfl | rfl <;> rfl
  refine closed_added p _ (by simp) ?_ ?_ (by simp [Event.drivesHigh]) (by simp [Event.drivesHigh])
    (by simp [Event.drivesHigh]) ?_ ?_
  · intro m n es fs h1 h2 e he
    rcases List.mem_append.1 he with he | he
    · exact h1 e he
    · exact h2 e he
  · intro l b
    simp [hp, latchOnConfig, Event.drivesHigh]
  · intro j _ e he
    simp only [stretchHonoured, List.mem_append, List.mem_singleton] at he
    rcases he with (rfl | he) | rfl
    · rfl
    · exact hflat j e he
    · rfl
  · intro e he
    simp only [stretchExpired, List.mem_append, List.mem_singleton] at he
    rcases he with rfl | he
    · rfl
    · exact hflat _ e he

end Sys2Proof.Laws
end

