-- ==== Sys2Proof/Laws/Monitor.lean ====
section
/-! SUPPORT. What a bus monitor (Sys2Proof/Safety.lean) makes of each protocol primitive when no clock stretch
times out: START, STOP, or one bit per cell. -/

namespace Sys2Proof.Laws

open Sys2Proof.Machine

/-- Unless a clock stretch timed out, what happened from `b` to `c` takes the monitor from `m` to `m'`. -/
def Seen (b c : Bus) (m m' : Monitor) : Prop :=
  c.stretchTimedOut = false → b.stretchTimedOut = false ∧ ∃ es, Added b c es ∧ es.foldl Monitor.see m = m'

theorem Seen.refl (b : Bus) (m : Monitor) : Seen b b m m := fun h => ⟨h, [], Added.refl b, rfl⟩

theorem Seen.trans {a b c : Bus} {m m' m'' : Monitor} (h : Seen a b m m') (g : Seen b c m' m'') :
    Seen a c m m'' := by
  intro hc
  obtain ⟨hb, fs, g1, g2⟩ := g hc
  obtain ⟨ha, es, h1, h2⟩ := h hb
  exact ⟨ha, es ++ fs, h1.trans g1, by rw [List.foldl_append, h2, g2]⟩

theorem seen_setPhase (q : Phase) (b : Bus) (m : Monitor) : Seen b (b.setPhase q) m m :=
  fun h => ⟨h, [], by simp [Added], rfl⟩

theorem seen_pullLow (p : Params) (l : Line) (b : Bus) (m : Monitor) :
    Seen b (pullLow p l b) m (m.see (.low l)) :=
  fun h => ⟨by simpa [pullLow] using h, [.latchOut l (latchOnConfig p l b), .low l, .half],
    by simp [Added, pullLow], rfl⟩

theorem seen_releaseSda (b : Bus) (m : Monitor) : Seen b (releaseSda b) m (m.see (.floated .sda)) :=
  fun h => ⟨by simpa [releaseSda] using h, [.floated .sda, .half], by simp [Added, releaseSda], rfl⟩

theorem seen_sampleSda (p : Params) (b : Bus) (m : Monitor) :
    Seen b (sample p .sda b).2 m (m.see (.sampled .sda (b.envSda.next p.sdaPin).1)) :=
  fun h => ⟨by simpa using h, [.sampled .sda (b.envSda.next p.sdaPin).1], by simp [Added], rfl⟩

theorem see_polls (j : Nat) (m : Monitor) :
    (List.replicate j [Event.sampled .scl false, .poll]).flatten.foldl Monitor.see m = m := by
  induction j with
  | zero => rfl
  | succ j ih => simpa [List.replicate_succ, Monitor.see] using ih

/-- The clock line goes high: a new clock pulse. -/
theorem seen_clockHigh (p : Params) (b : Bus) (m : Monitor) :
    Seen b (clockHigh p b) m { m with clockHigh := true, sawLow := false, edge := false } := by
  intro h
  have h' : (sclReleaseWait p b).stretchTimedOut = false := by simpa [clockHigh] using h
  rcases sclReleaseWait_added p b with ⟨j, -, hadd, hflag⟩ | ⟨-, hflag⟩
  · refine ⟨hflag ▸ h', stretchHonoured j ++ [.half], hadd.trans (by simp [Added, clockHigh]), ?_⟩
    simp only [stretchHonoured, List.foldl_append, List.foldl_cons, List.foldl_nil]
    rw [show m.see (.floated .scl) = m from rfl, see_polls]
    rfl
  · simp [h'] at hflag

/-- `Start` on an idle bus is START (spec/30_encoding.md R53). -/
theorem seen_startCondition (p : Params) (b : Bus) (saw edge : Bool) (xs : List WireSymbol) :
    Seen b (startCondition p b) ⟨true, false, saw, edge, xs⟩ ⟨false, true, false, true, xs ++ [.start]⟩ :=
  (((((seen_setPhase .start b _).trans (seen_releaseSda _ _)).trans (seen_clockHigh p _ _)).trans
    (seen_pullLow p .sda _ _)).trans (seen_pullLow p .scl _ _))

/-- `Stop` with the clock driven low is STOP (R53). -/
theorem seen_stopCondition (p : Params) (b : Bus) (driven saw edge : Bool) (xs : List WireSymbol) :
    Seen b (stopCondition p b) ⟨false, driven, saw, edge, xs⟩ ⟨true, false, false, true, xs ++ [.stop]⟩ :=
  (((((seen_setPhase .stop b _).trans (seen_pullLow p .sda _ _)).trans (seen_clockHigh p _ _)).trans
    (seen_releaseSda _ _)).trans (seen_setPhase .idle _ _))

/-- `WriteBit(v)` with the clock driven low is the bit `v` (spec/30_encoding.md R50). -/
theorem seen_writeBit (p : Params) (v : Level) (b : Bus) (driven saw edge : Bool) (xs : List WireSymbol) :
    Seen b (writeBit p v b) ⟨false, driven, saw, edge, xs⟩ ⟨false, !v, false, false, xs ++ [.bit v]⟩ := by
  cases v
  · exact ((seen_pullLow p .sda b _).trans (seen_clockHigh p _ _)).trans (seen_pullLow p .scl _ _)
  · exact ((seen_releaseSda b _).trans (seen_clockHigh p _ _)).trans (seen_pullLow p .scl _ _)

/-- `ReadBit` with the clock driven low is the bit it returns (R50). -/
theorem seen_readBit (p : Params) (b : Bus) (driven saw edge : Bool) (xs : List WireSymbol) :
    Seen b (readBit p b).2 ⟨false, driven, saw, edge, xs⟩
      ⟨false, false, !(b.envSda.next p.sdaPin).1, false, xs ++ [.bit (b.envSda.next p.sdaPin).1]⟩ := by
  have h := (((seen_releaseSda b ⟨false, driven, saw, edge, xs⟩).trans (seen_clockHigh p _ _)).trans
    (seen_sampleSda p _ _)).trans (seen_pullLow p .scl _ _)
  simp only [clockHigh_envSda, releaseSda_envSda] at h
  cases hv : (b.envSda.next p.sdaPin).1 <;> rw [hv] at h <;> exact h

/-- The eight data cells of a sent byte (spec/30_encoding.md R51). -/
theorem seen_writeBits (p : Params) (v : Byte) (b : Bus) (driven saw edge : Bool) (xs : List WireSymbol) :
    ∃ d s e, Seen b (writeBits p v b) ⟨false, driven, saw, edge, xs⟩
      ⟨false, d, s, e, xs ++ (msbFirst v).map .bit⟩ := by
  have aux : ∀ (l : List Nat) (c : Bus) (d s e : Bool) (ys : List WireSymbol), ∃ d' s' e',
      Seen c (l.foldl (fun b i => writeBit p (v.getLsbD i) b) c) ⟨false, d, s, e, ys⟩
        ⟨false, d', s', e', ys ++ l.map fun i => .bit (v.getLsbD i)⟩ := by
    intro l
    induction l with
    | nil => exact fun c d s e ys => ⟨d, s, e, by simpa using Seen.refl c _⟩
    | cons i l ih =>
      intro c d s e ys
      obtain ⟨d', s', e', h⟩ := ih (writeBit p (v.getLsbD i) c) (!v.getLsbD i) false false
        (ys ++ [.bit (v.getLsbD i)])
      exact ⟨d', s', e', by simpa using (seen_writeBit p (v.getLsbD i) c d s e ys).trans h⟩
  obtain ⟨d, s, e, h⟩ := aux bitOrder b driven saw edge xs
  exact ⟨d, s, e, h⟩

/-- A sent byte is its frame on the wire (R51). -/
theorem seen_writeByte (p : Params) (role : ByteRole) (v : Byte) (b : Bus) (driven saw edge : Bool)
    (xs : List WireSymbol) : ∃ d s e, Seen b (writeByte p role v b).2 ⟨false, driven, saw, edge, xs⟩
      ⟨false, d, s, e, xs ++ wireByte (b.envSda.next p.sdaPin).1 v⟩ := by
  obtain ⟨d, s, e, h⟩ := seen_writeBits p v (b.setPhase (rolePhase role)) driven saw edge xs
  have := (((seen_setPhase (rolePhase role) b _).trans h).trans (seen_setPhase .ackOrNack _ _)).trans
    (seen_readBit p _ d s e _)
  rw [setPhase_envSda, (writeBits_spec p v _).2.2.1, setPhase_envSda, List.append_assoc] at this
  exact ⟨_, _, _, this⟩

/-- The eight data cells of a received byte (R51). -/
theorem seen_readBits (p : Params) (b : Bus) (driven saw edge : Bool) (xs : List WireSymbol) :
    ∃ d s e, Seen b (readBits p b).2 ⟨false, driven, saw, edge, xs⟩
      ⟨false, d, s, e, xs ++ (msbFirst (readBits p b).1).map .bit⟩ := by
  have aux : ∀ (l : List Nat) (acc : Byte × Bus) (d s e : Bool) (ys : List WireSymbol), ∃ d' s' e',
      Seen acc.2 (l.foldl (fun acc (_ : Nat) =>
          (shiftIn acc.1 (readBit p acc.2).1, (readBit p acc.2).2)) acc).2 ⟨false, d, s, e, ys⟩
        ⟨false, d', s', e', ys ++ (takeAnswers p.sdaPin l.length acc.2.envSda).1.map .bit⟩ := by
    intro l
    induction l with
    | nil => exact fun acc d s e ys => ⟨d, s, e, by simpa [takeAnswers] using Seen.refl acc.2 _⟩
    | cons i l ih =>
      intro acc d s e ys
      obtain ⟨d', s', e', h⟩ := ih (shiftIn acc.1 (readBit p acc.2).1, (readBit p acc.2).2) _ _ _ _
      exact ⟨d', s', e', by simpa [takeAnswers] using (seen_readBit p acc.2 d s e ys).trans h⟩
  obtain ⟨d, s, e, h⟩ := aux bitOrder (0, b) driven saw edge xs
  refine ⟨d, s, e, ?_⟩
  rw [(readBits_spec p b).1]
  simp only [takeAnswers, msbFirst_byteOfBits]
  exact h

/-- A received byte is its frame on the wire (R51). -/
theorem seen_readByte (p : Params) (ack : Bool) (b : Bus) (driven saw edge : Bool)
    (xs : List WireSymbol) : ∃ d s e, Seen b (readByte p ack b).2 ⟨false, driven, saw, edge, xs⟩
      ⟨false, d, s, e, xs ++ wireByte (!ack) (readByte p ack b).1⟩ := by
  obtain ⟨d, s, e, h⟩ := seen_readBits p (b.setPhase .dataByte) driven saw edge xs
  have := (((seen_setPhase .dataByte b _).trans h).trans (seen_setPhase .ackOrNack _ _)).trans
    (seen_writeBit p (ackLevel ack) _ d s e _)
  rw [List.append_assoc] at this
  exact ⟨_, _, _, this⟩

end Sys2Proof.Laws
end

