-- ==== Sys2Proof/Laws/PerInstr.lean ====
section
/-! SUPPORT. A fact about every operation as syntax, one lemma for each constructor: the encoding carries
the operation code of spec/30_encoding.md R60 in field `OP`, 0 in `RSV`, and the operands in `A` and `B`. -/

namespace Sys2Proof.Laws

/-- The encoding of `i` has the fields of R57 and R60. -/
def FieldsEncoded.Statement (i : Instr) : Prop :=
  opOf (encode i) = i.opcode ∧ rsvOf (encode i) = 0 ∧ fieldA (encode i) = i.operandA ∧
    fieldB (encode i) = i.operandB

theorem fieldsEncoded (i : Instr) : FieldsEncoded.Statement i :=
  ⟨opOf_packWord _ _ _, rsvOf_packWord _ _ _, fieldA_packWord _ _ _, fieldB_packWord _ _ _⟩

theorem FieldsEncoded.beginBus : FieldsEncoded.Statement .beginBus := fieldsEncoded _
theorem FieldsEncoded.beginTx (a : Addr) : FieldsEncoded.Statement (.beginTx a) := fieldsEncoded _
theorem FieldsEncoded.write (b : Byte) : FieldsEncoded.Statement (.write b) := fieldsEncoded _
theorem FieldsEncoded.endTx : FieldsEncoded.Statement .endTx := fieldsEncoded _
theorem FieldsEncoded.requestFrom (a : Addr) (count : Byte) :
    FieldsEncoded.Statement (.requestFrom a count) := fieldsEncoded _
theorem FieldsEncoded.read : FieldsEncoded.Statement .read := fieldsEncoded _
theorem FieldsEncoded.available : FieldsEncoded.Statement .available := fieldsEncoded _
theorem FieldsEncoded.driveLow (l : Line) : FieldsEncoded.Statement (.driveLow l) := fieldsEncoded _
theorem FieldsEncoded.release (l : Line) : FieldsEncoded.Statement (.release l) := fieldsEncoded _
theorem FieldsEncoded.sample (l : Line) : FieldsEncoded.Statement (.sample l) := fieldsEncoded _
theorem FieldsEncoded.halfDelay : FieldsEncoded.Statement .halfDelay := fieldsEncoded _
theorem FieldsEncoded.pollDelay : FieldsEncoded.Statement .pollDelay := fieldsEncoded _
theorem FieldsEncoded.stabilizeWait : FieldsEncoded.Statement .stabilizeWait := fieldsEncoded _
theorem FieldsEncoded.sclReleaseWait : FieldsEncoded.Statement .sclReleaseWait := fieldsEncoded _
theorem FieldsEncoded.start : FieldsEncoded.Statement .start := fieldsEncoded _
theorem FieldsEncoded.stop : FieldsEncoded.Statement .stop := fieldsEncoded _
theorem FieldsEncoded.writeBit (b : Level) : FieldsEncoded.Statement (.writeBit b) := fieldsEncoded _
theorem FieldsEncoded.readBit : FieldsEncoded.Statement .readBit := fieldsEncoded _
theorem FieldsEncoded.writeByte (v : Byte) : FieldsEncoded.Statement (.writeByte v) := fieldsEncoded _
theorem FieldsEncoded.readByte (ack : Bool) : FieldsEncoded.Statement (.readByte ack) := fieldsEncoded _

end Sys2Proof.Laws
end

