-- ==== Sys2Proof/Laws/Phases.lean ====
section
/-! SUPPORT. The `PHASE` column of the trace (spec/10_state.md R15, R17): inside a cell every event happens in
the phase the cell was entered in. -/

namespace Sys2Proof.Laws

open Sys2Proof.Machine

/-- From `b` to `c` only events in phase `q` happened, at least `n` of them, and the phase is still `q`. -/
def InPhase (q : Phase) (n : Nat) (b c : Bus) : Prop :=
  b.phase = q → c.phase = q ∧ ∃ m, n ≤ m ∧ ∃ es, c.trace = b.trace ++ es ∧
    es.map Entry.phase = List.replicate m q

theorem InPhase.refl (q : Phase) (b : Bus) : InPhase q 0 b b :=
  fun h => ⟨h, 0, Nat.le_refl _, [], by simp, rfl⟩

theorem InPhase.trans {q : Phase} {m n : Nat} {a b c : Bus} (h : InPhase q m a b) (g : InPhase q n b c) :
    InPhase q (m + n) a c := by
  intro ha
  obtain ⟨hb, k, hk, es, h1, h2⟩ := h ha
  obtain ⟨hc, l, hl, fs, g1, g2⟩ := g hb
  exact ⟨hc, k + l, by omega, es ++ fs, by simp [g1, h1], by simp [h2, g2]⟩

theorem InPhase.mono {q : Phase} {m n : Nat} {a b : Bus} (h : InPhase q m a b) (hmn : n ≤ m) :
    InPhase q n a b := by
  intro ha
  obtain ⟨hb, k, hk, hes⟩ := h ha
  exact ⟨hb, k, by omega, hes⟩

theorem inPhase_emit (q : Phase) (b : Bus) (e : Event) : InPhase q 1 b (b.emit e) :=
  fun h => ⟨h, 1, Nat.le_refl _, [⟨b.phase, e⟩], rfl, by simp [h]⟩

theorem inPhase_driveLow (q : Phase) (p : Params) (l : Line) (b : Bus) : InPhase q 0 b (driveLow p l b) := by
  intro h
  refine ⟨by simpa using h, 2, by omega,
    [⟨q, .latchOut l (latchOnConfig p l b)⟩, ⟨q, .low l⟩], ?_, rfl⟩
  cases l <;> simp [driveLow, assertLow, configureOutput, Bus.emit, Bus.setPin, h]

theorem inPhase_release (q : Phase) (l : Line) (b : Bus) : InPhase q 0 b (release l b) := by
  intro h
  refine ⟨by simpa using h, 1, by omega, [⟨q, .floated l⟩], ?_, rfl⟩
  cases l <;> simp [release, configureInput, Bus.emit, Bus.setPin, h]

theorem inPhase_sample (q : Phase) (p : Params) (l : Line) (b : Bus) : InPhase q 0 b (sample p l b).2 := by
  intro h
  refine ⟨by simpa using h, 1, by omega, [⟨q, .sampled l (sampledLevel p l b)⟩], ?_, rfl⟩
  cases l <;> simp [sample, configureInput, Bus.emit, Bus.setPin, Bus.setEnv, h]

theorem inPhase_pollLoop (q : Phase) (p : Params) (k : Nat) (b : Bus) : InPhase q 0 b (pollLoop p k b) := by
  induction k generalizing b with
  | zero => exact fun h => ⟨h, 0, Nat.le_refl _, [], by simp [pollLoop], rfl⟩
  | succ k ih =>
    unfold pollLoop
    split
    · exact inPhase_sample q p .scl b
    · exact ((inPhase_sample q p .scl b).trans
        (((inPhase_emit q _ .poll).mono (Nat.zero_le _)).trans (ih _)))

/-- Every cell happens in one phase, with at least one event for each clock release. -/
theorem cell_inPhase (p : Params) (q : Phase) : CellClosed p (InPhase q) where
  refl b := InPhase.refl q b
  trans h g := h.trans g
  driveLow l b := inPhase_driveLow q p l b
  releaseSda b := inPhase_release q .sda b
  sampleSda b := inPhase_sample q p .sda b
  halfDelay b := (inPhase_emit q b _).mono (Nat.zero_le _)
  sclReleaseWait b := by
    have h1 : InPhase q 1 b (release .scl b) := by
      intro h
      refine ⟨by simpa using h, 1, Nat.le_refl _, [⟨q, .floated .scl⟩], ?_, rfl⟩
      simp [release, configureInput, Bus.emit, Bus.setPin, h]
    exact h1.trans (inPhase_pollLoop q p _ _)

/-- A block of one phase before a block of others is one run. -/
theorem phaseRuns_replicate_append (q : Phase) (m : Nat) (hm : 1 ≤ m) (r : Phase) (hqr : q ≠ r)
    (rest : List Phase) : phaseRuns (List.replicate m q ++ r :: rest) = q :: phaseRuns (r :: rest) := by
  induction m with
  | zero => omega
  | succ m ih =>
    cases m with
    | zero => simp [phaseRuns, hqr]
    | succ m =>
      have := ih (by omega)
      simp only [List.replicate_succ, List.cons_append, phaseRuns, if_true] at this ⊢
      exact this

/-- A block of one phase is one run. -/
theorem phaseRuns_replicate (q : Phase) (m : Nat) (hm : 1 ≤ m) : phaseRuns (List.replicate m q) = [q] := by
  induction m with
  | zero => omega
  | succ m ih =>
    cases m with
    | zero => rfl
    | succ m =>
      have := ih (by omega)
      simp only [List.replicate_succ, phaseRuns, if_true] at this ⊢
      exact this

end Sys2Proof.Laws
end

