-- ==== Sys2Proof/Laws/Step.lean ====
section
/-! SUPPORT. What a step can do, said once, and that every operation answers a next state. -/

namespace Sys2Proof.Laws

open Sys2Proof.Machine

/-- What a step can do: nothing, refuse an illegal word, or execute an operation. -/
theorem step_cases (s : State) :
    (s.incoming = [] ∧ step s = .next s) ∨
    (∃ r rest, s.incoming = r :: rest ∧
      (∀ i, decode r.word = .ok i → i.wellFormedAt r.port = false) ∧
      step s = .next (refuseWord { s with incoming := rest })) ∨
    (∃ r rest i, s.incoming = r :: rest ∧ decode r.word = .ok i ∧ i.wellFormedAt r.port = true ∧
      step s = exec i { s with incoming := rest }) := by
  unfold step fetch
  cases hs : s.incoming with
  | nil => exact .inl ⟨rfl, rfl⟩
  | cons r rest =>
    cases hd : decode r.word with
    | error e => exact .inr (.inl ⟨r, rest, rfl, by simp [hd], by simp [hd]⟩)
    | ok i =>
      cases hw : i.wellFormedAt r.port with
      | false =>
        refine .inr (.inl ⟨r, rest, rfl, ?_, by simp [hd, hw]⟩)
        intro j hj
        rw [hd] at hj
        exact Except.ok.inj hj ▸ hw
      | true => exact .inr (.inr ⟨r, rest, i, rfl, hd, hw, by simp [hd, hw]⟩)

/-- What an operation never touches, and that it answers a next state. -/
theorem exec_next (i : Instr) (s : State) : ∃ t, exec i s = .next t ∧ t.incoming = s.incoming ∧
    t.params = s.params ∧ t.resets = s.resets ∧ s.bus.trace <+: t.bus.trace := by
  have hc := closed_trace_prefix s.params
  cases i with
  | beginBus =>
    exact ⟨_, rfl, rfl, rfl, rfl, (trace_prefix_release .sda s.bus).trans
      ((trace_prefix_release .scl _).trans (trace_prefix_emit _ _))⟩
  | beginTx a => exact ⟨_, rfl, rfl, rfl, rfl, List.prefix_refl _⟩
  | write b => exact ⟨_, rfl, by simp, by simp, by simp, by simp⟩
  | endTx =>
    obtain ⟨k, -, h⟩ := hc.writeTransaction s.addr s.queued s.bus
    exact ⟨_, rfl, rfl, rfl, rfl, h⟩
  | requestFrom a count =>
    obtain ⟨k, -, h⟩ := hc.readTransaction a (clampCount count).val s.rxBuf s.bus
    exact ⟨_, rfl, rfl, rfl, rfl, h⟩
  | read => exact ⟨_, rfl, by simp, by simp, by simp, by simp⟩
  | available => exact ⟨_, rfl, rfl, rfl, rfl, List.prefix_refl _⟩
  | driveLow l => exact ⟨_, rfl, rfl, rfl, rfl, trace_prefix_driveLow _ l _⟩
  | release l => exact ⟨_, rfl, rfl, rfl, rfl, trace_prefix_release l _⟩
  | sample l => exact ⟨_, rfl, rfl, rfl, rfl, trace_prefix_sample _ l _⟩
  | halfDelay => exact ⟨_, rfl, rfl, rfl, rfl, trace_prefix_emit _ _⟩
  | pollDelay => exact ⟨_, rfl, rfl, rfl, rfl, trace_prefix_emit _ _⟩
  | stabilizeWait => exact ⟨_, rfl, rfl, rfl, rfl, trace_prefix_emit _ _⟩
  | sclReleaseWait => exact ⟨_, rfl, rfl, rfl, rfl, hc.sclReleaseWait _⟩
  | start => exact ⟨_, rfl, rfl, rfl, rfl, hc.startCondition _⟩
  | stop => exact ⟨_, rfl, rfl, rfl, rfl, hc.stopCondition _⟩
  | writeBit b => exact ⟨_, rfl, rfl, rfl, rfl, hc.writeBit _ _⟩
  | readBit => exact ⟨_, rfl, rfl, rfl, rfl, hc.readBit _⟩
  | writeByte v =>
    exact ⟨_, rfl, rfl, rfl, rfl,
      hc.writeByte (injectedRole s.params s.bus) v { s.bus with draws := s.bus.draws + 1 }⟩
  | readByte ack => exact ⟨_, rfl, rfl, rfl, rfl, hc.readByte _ _⟩

end Sys2Proof.Laws
end

