-- ==== Sys2Proof/Tests/Slice0.lean ====
section
/-! SUPPORT. Tests of the model: ill-formed terms that are refused, words written out from the encodings of
spec/30_encoding.md R60, single steps from the vectors of spec/95_test_vectors.md, and a witness for the
hypotheses of every obligation that has some. -/

namespace Sys2Proof.Tests

open Sys2Proof.Machine

/-! ### Helpers -/

/-- An engine after `BEGIN`, with a stretch bound, the answers on the data line and on the clock line. -/
def bench (polls : Nat) (sda scl : List Level) : State where
  params := ⟨polls, 4, 5, .low, false⟩
  addr := 0x02
  txLen := 0
  rxLen := 0
  rxCur := 0
  txActive := false
  txBuf := Vector.replicate 32 0x11
  rxBuf := Vector.replicate 32 0x22
  bus :=
    { sda := ⟨.inPullup, false⟩, scl := ⟨.inPullup, false⟩, phase := .idle, envSda := ⟨sda, 0⟩,
      envScl := ⟨scl, 0⟩, draws := 0, stretchTimedOut := false, trace := [] }
  incoming := []
  response := none
  resets := 0

/-- An engine whose clock line is never stretched. -/
def calm (sda : List Level) : State := bench 1 sda (List.replicate 40 true)

/-- The state after an operation. -/
def after (i : Instr) (s : State) : State :=
  match exec i s with
  | .next t => t
  | .fault _ => s
  | .refused _ => s

/-- The state after one step. -/
def stepped (s : State) : State :=
  match step s with
  | .next t => t
  | .fault _ => s
  | .refused _ => s

/-- The operation a word decodes to, if any. -/
def decoded (w : CmdWord) : Option Instr :=
  match decode w with
  | .ok i => some i
  | .error _ => none

/-- The macros of spec/95_test_vectors.md section 1, with the clock high at the first poll. -/
def mS : List Event :=
  [.floated .sda, .half, .floated .scl, .sampled .scl true, .half, .low .sda, .half, .low .scl, .half]
def mP : List Event :=
  [.low .sda, .half, .floated .scl, .sampled .scl true, .half, .floated .sda, .half]
def w0 : List Event := [.low .sda, .half, .floated .scl, .sampled .scl true, .half, .low .scl, .half]
def w1 : List Event := [.floated .sda, .half, .floated .scl, .sampled .scl true, .half, .low .scl, .half]
def r0 : List Event :=
  [.floated .sda, .half, .floated .scl, .sampled .scl true, .half, .sampled .sda false, .low .scl, .half]
def r1 : List Event :=
  [.floated .sda, .half, .floated .scl, .sampled .scl true, .half, .sampled .sda true, .low .scl, .half]

/-! ### Ill-formed terms are refused -/

/-- V-E14: a `UOP` word is refused at the host port (R58, R63). -/
theorem test_uop_refused_at_host : Instr.wellFormedAt .start .host = false := by decide
theorem test_read_byte_refused_at_host : (Instr.readByte true).wellFormedAt .host = false := by decide
/-- The sequencer takes it (R58). -/
theorem test_uop_taken_by_sequencer : Instr.wellFormedAt .start .sequencer = true := by decide
/-- The two pins of an engine are distinct (spec/00_scope.md R4). -/
theorem test_equal_pins_ill_formed : (Params.wellFormed ⟨1000, 4, 4, .any, false⟩) = false := by decide
/-- The stretch bound is at least 1 (spec/00_scope.md R4). -/
theorem test_no_polls_ill_formed : (Params.wellFormed ⟨0, 4, 5, .any, false⟩) = false := by decide
/-- No pin serves two engines (spec/60_exceptions.md R134). -/
theorem test_shared_pin_ill_formed :
    systemWellFormed [⟨1, 4, 5, .any, false⟩, ⟨1, 5, 6, .any, false⟩] = false := by decide
theorem test_disjoint_pins_well_formed :
    systemWellFormed [⟨1, 4, 5, .any, false⟩, ⟨1, 6, 7, .any, false⟩] = true := by decide

/-! ### Words written out from the encodings (R60, section 3.5 of the vectors) -/

theorem test_decode_begin : decoded 0x01000000 = some .beginBus := by decide
theorem test_decode_begin_tx : decoded 0x02006800 = some (.beginTx 0x68) := by decide
/-- V-E3: `A[7]` is ignored (R59). -/
theorem test_decode_begin_tx_high_bit : decoded 0x02008200 = some (.beginTx 0x02) := by decide
theorem test_decode_write : decoded 0x030000A5 = some (.write 0xA5) := by decide
theorem test_decode_end_tx : decoded 0x04000000 = some .endTx := by decide
/-- V-E7. -/
theorem test_decode_request_from : decoded 0x050002FF = some (.requestFrom 0x02 255) := by decide
theorem test_decode_read : decoded 0x06000000 = some .read := by decide
theorem test_decode_available : decoded 0x07000000 = some .available := by decide
theorem test_decode_drive_low : decoded 0x10000000 = some (.driveLow .sda) := by decide
theorem test_decode_release : decoded 0x11000001 = some (.release .scl) := by decide
theorem test_decode_sample : decoded 0x12000001 = some (.sample .scl) := by decide
theorem test_decode_half_delay : decoded 0x13000000 = some .halfDelay := by decide
theorem test_decode_poll_delay : decoded 0x14000000 = some .pollDelay := by decide
theorem test_decode_stabilize_wait : decoded 0x15000000 = some .stabilizeWait := by decide
theorem test_decode_scl_release_wait : decoded 0x20000000 = some .sclReleaseWait := by decide
theorem test_decode_start : decoded 0x21000000 = some .start := by decide
theorem test_decode_stop : decoded 0x22000000 = some .stop := by decide
/-- V-E16. -/
theorem test_decode_write_bit : decoded 0x23000001 = some (.writeBit true) := by decide
theorem test_decode_read_bit : decoded 0x24000000 = some .readBit := by decide
theorem test_decode_write_byte : decoded 0x25000004 = some (.writeByte 0x04) := by decide
theorem test_decode_read_byte : decoded 0x26000001 = some (.readByte true) := by decide
/-- V-E10, V-E15: unknown operation codes. -/
theorem test_decode_unknown : decode 0x08000000 = .error .unknownOp := by rfl
/-- V-E12, V-E13, V-E17: a set bit where the row requires 0. -/
theorem test_decode_reserved : decode 0x03010045 = .error .reservedNotZero := by rfl
theorem test_decode_write_with_address : decode 0x03000145 = .error .operandNotZero := by rfl
theorem test_decode_write_bit_two : decode 0x23000002 = .error .operandNotZero := by rfl
/-- The table's numbering: a word of 32 bits. -/
theorem test_decode_table_word : decodeTableWord 32 0x05000204 = some (.requestFrom 0x02 4) := by decide

/-! ### Line primitives (section 3.1 of the vectors) -/

/-- V-L8's start state: the data line driven low. -/
def driven : State :=
  let s := calm [true]
  { s with bus := { s.bus with sda := ⟨.outLow, false⟩ } }

/-- V-L1. -/
theorem test_drive_low :
    (after (.driveLow .sda) (calm [])).bus.tokens = [.low .sda] ∧
      (after (.driveLow .sda) (calm [])).bus.sda.mode = .outLow := by decide
/-- V-L12: with a latch that starts high the pin first drives 1. -/
theorem test_drive_low_high_latch :
    (configureOutput ⟨1, 4, 5, .high, false⟩ .sda (calm []).bus).level
      ⟨1, 4, 5, .high, false⟩ .sda 0 false = true := by decide
/-- V-L4. -/
theorem test_release :
    (after (.release .sda) driven).bus.tokens = [.floated .sda] ∧
      (after (.release .sda) driven).bus.sda.mode = .inPullup := by decide
/-- V-L8: the sample released the line, so it reads 1. -/
theorem test_sample_releases :
    (after (.sample .sda) driven).response = some (.level true) ∧
      (after (.sample .sda) driven).bus.sda.mode = .inPullup := by decide
/-- V-L6. -/
theorem test_sample_low : (after (.sample .sda) (calm [false])).response = some (.level false) := by decide
/-- V-L9, V-L10, V-L11. -/
theorem test_half_delay : (after .halfDelay driven).bus.tokens = [.half] := by decide
theorem test_poll_delay : (after .pollDelay driven).bus.tokens = [.poll] := by decide
theorem test_stabilize_wait : (after .stabilizeWait driven).bus.tokens = [.stabilize] := by decide

/-! ### Protocol primitives (section 3.2 of the vectors) -/

/-- V-P2: two polls low, then high. -/
theorem test_scl_release_wait_honoured :
    (after .sclReleaseWait (bench 5 [] [false, false, true])).bus.tokens =
      [.floated .scl, .sampled .scl false, .poll, .sampled .scl false, .poll, .sampled .scl true] := by
  decide
/-- V-P2b: three polls, all low; two answers are left. -/
theorem test_scl_release_wait_expired :
    (after .sclReleaseWait (bench 3 [] [false, false, false, false, false])).bus.tokens =
        [.floated .scl, .sampled .scl false, .poll, .sampled .scl false, .poll, .sampled .scl false, .poll] ∧
      (after .sclReleaseWait (bench 3 [] [false, false, false, false, false])).bus.envScl.script =
        [false, false] := by decide
/-- V-P4. -/
theorem test_start :
    (after .start (calm [])).bus.tokens = mS ∧ (after .start (calm [])).bus.sda.mode = .outLow ∧
      (after .start (calm [])).bus.scl.mode = .outLow := by decide
/-- V-P5. -/
theorem test_stop :
    (after .stop driven).bus.tokens = mP ∧ (after .stop driven).bus.phase = .idle := by decide
/-- V-P6, V-P7. -/
theorem test_write_bit_zero : (after (.writeBit false) driven).bus.tokens = w0 := by decide
theorem test_write_bit_one : (after (.writeBit true) driven).bus.tokens = w1 := by decide
/-- V-P8. -/
theorem test_read_bit :
    (after .readBit (calm [false])).bus.tokens = r0 ∧
      (after .readBit (calm [false])).response = some (.bit false) := by decide
/-- V-P10. -/
theorem test_read_bit_stretched :
    (after .readBit (bench 2 [false] [false, true])).bus.tokens =
      [.floated .sda, .half, .floated .scl, .sampled .scl false, .poll, .sampled .scl true, .half,
        .sampled .sda false, .low .scl, .half] := by decide
/-- V-P14. -/
theorem test_write_byte :
    (after (.writeByte 0xA5) (calm [false])).bus.tokens =
        w1 ++ w0 ++ w1 ++ w0 ++ w0 ++ w1 ++ w0 ++ w1 ++ r0 ∧
      (after (.writeByte 0xA5) (calm [false])).response = some (.acked true) := by decide
/-- V-P11. -/
theorem test_write_byte_nack :
    (after (.writeByte 0x04) (calm [true])).response = some (.acked false) := by decide
/-- V-P15. -/
theorem test_read_byte_last :
    (after (.readByte false) (calm [false, true, true, true, true, true, true, true])).bus.tokens =
        r0 ++ r1 ++ r1 ++ r1 ++ r1 ++ r1 ++ r1 ++ r1 ++ w1 ∧
      (after (.readByte false) (calm [false, true, true, true, true, true, true, true])).response =
        some (.byte 0x7F) := by decide
/-- V-P16. -/
theorem test_read_byte_acknowledged :
    (after (.readByte true) (calm [true, false, true, false, false, true, false, true])).response =
        some (.byte 0xA5) ∧
      (after (.readByte true) (calm [true, false, true, false, false, true, false, true])).bus.sda.mode =
        .outLow := by decide

/-! ### Address byte (section 3.3 of the vectors) -/

/-- V-A1, V-A2, V-A4, V-A5, V-A7. -/
theorem test_address_byte :
    addrByte 0x02 .write = 0x04 ∧ addrByte 0x02 .read = 0x05 ∧ addrByte 0x7F .read = 0xFF ∧
      addrByte 0x7F .write = 0xFE ∧ addrByte 0x68 .read = 0xD1 := by decide

/-! ### Transaction API (section 3.4 of the vectors) -/

/-- V-T1. -/
theorem test_begin :
    (after .beginBus driven).bus.tokens = [.floated .sda, .floated .scl, .stabilize] ∧
      (after .beginBus driven).bus.sda.mode = .inPullup := by decide
/-- V-T3. -/
theorem test_begin_tx :
    (after (.beginTx 0x7F) { calm [] with txLen := 5, rxLen := 2, rxCur := 1 }).txLen = 0 ∧
      (after (.beginTx 0x7F) { calm [] with txLen := 5, rxLen := 2, rxCur := 1 }).addr = 0x7F ∧
      (after (.beginTx 0x7F) { calm [] with txLen := 5, rxLen := 2, rxCur := 1 }).txActive = true ∧
      (after (.beginTx 0x7F) { calm [] with txLen := 5, rxLen := 2, rxCur := 1 }).rxLen = 2 := by decide
/-- V-T6. -/
theorem test_write_last_place :
    (after (.write 0xAA) { calm [] with txLen := 31 }).response = some (.accepted true) ∧
      (after (.write 0xAA) { calm [] with txLen := 31 }).txCell 31 = 0xAA ∧
      (after (.write 0xAA) { calm [] with txLen := 31 }).txLen = 32 := by decide
/-- V-T7. -/
theorem test_write_full :
    (after (.write 0xBB) { calm [] with txLen := 32 }).response = some (.accepted false) ∧
      (after (.write 0xBB) { calm [] with txLen := 32 }).txCell 31 = 0x11 := by decide

/-- V-T9's start state. -/
def twoQueued : State :=
  { calm [false, true] with
    addr := 0x50, txLen := 2, txActive := true, txBuf := (Vector.replicate 32 0x11).set 0 0xFF }

/-- V-T8: a probe of the address only. -/
theorem test_end_tx_probe :
    (after .endTx (calm [false])).response = some (.status .ok) ∧
      (after .endTx (calm [false])).bus.tokens =
        mS ++ w0 ++ w0 ++ w0 ++ w0 ++ w0 ++ w1 ++ w0 ++ w0 ++ r0 ++ mP := by decide +kernel
/-- V-T9. -/
theorem test_end_tx_data_nack :
    (after .endTx twoQueued).response = some (.status .dataNack) ∧
      (after .endTx twoQueued).bus.tokens =
        mS ++ w1 ++ w0 ++ w1 ++ w0 ++ w0 ++ w0 ++ w0 ++ w0 ++ r0 ++ w1 ++ w1 ++ w1 ++ w1 ++ w1 ++ w1 ++
          w1 ++ w1 ++ r1 ++ mP ∧
      (after .endTx twoQueued).txLen = 0 ∧ (after .endTx twoQueued).txActive = false := by decide +kernel

/-- V-T13's answers: the address acknowledged, then the bits of 0xA5. -/
def oneByte : State := calm [false, true, false, true, false, false, true, false, true]

/-- V-T13. -/
theorem test_request_from_one :
    (after (.requestFrom 0x68 1) oneByte).response = some (.received 1) ∧
      (after (.requestFrom 0x68 1) oneByte).rxCell 0 = 0xA5 ∧
      (after (.requestFrom 0x68 1) oneByte).addr = 0x02 ∧
      (after (.requestFrom 0x68 1) oneByte).bus.tokens =
        mS ++ w1 ++ w1 ++ w0 ++ w1 ++ w0 ++ w0 ++ w0 ++ w1 ++ r0 ++ r1 ++ r0 ++ r1 ++ r0 ++ r0 ++ r1 ++
          r0 ++ r1 ++ w1 ++ mP := by decide +kernel
/-- V-T14: no acknowledge; the unread byte is gone. -/
theorem test_request_from_nack :
    (after (.requestFrom 0x68 2) { calm [true] with rxLen := 2, rxCur := 1 }).response =
        some (.received 0) ∧
      (after (.requestFrom 0x68 2) { calm [true] with rxLen := 2, rxCur := 1 }).rxLen = 0 ∧
      (after (.requestFrom 0x68 2) { calm [true] with rxLen := 2, rxCur := 1 }).rxCur = 0 := by decide
/-- V-T16. -/
theorem test_read :
    (after .read { calm [] with rxLen := 4, rxCur := 3 }).response = some (.byte 0x22) ∧
      (after .read { calm [] with rxLen := 4, rxCur := 3 }).rxCur = 4 := by decide
/-- V-T17. -/
theorem test_read_empty :
    (after .read { calm [] with rxLen := 4, rxCur := 4 }).response = some (.byte 0) ∧
      (after .read { calm [] with rxLen := 4, rxCur := 4 }).rxCur = 4 := by decide
/-- V-T19, V-T21. -/
theorem test_available :
    (after .available { calm [] with rxLen := 4, rxCur := 1 }).response = some (.count 3) ∧
      (after .available { calm [] with rxLen := 32 }).response = some (.count 32) := by decide

/-- P1: a monitor reads START, 0x04, STOP, with the acknowledge bit (section 1 of the vectors). -/
theorem test_monitor_probe :
    wireSymbols (after .endTx (calm [false])).bus.events =
      [.start, .bit false, .bit false, .bit false, .bit false, .bit false, .bit true, .bit false,
        .bit false, .bit false, .stop] := by decide +kernel

/-! ### The step, and the reset state -/

/-- V-E14: `START` at the host port is answered `ILLEGAL` and nothing happens on the pins. -/
theorem test_step_illegal :
    (stepped { calm [] with incoming := [⟨.host, 0x21000000⟩] }).response = some .illegal ∧
      (stepped { calm [] with incoming := [⟨.host, 0x21000000⟩] }).bus.trace = [] ∧
      (stepped { calm [] with incoming := [⟨.host, 0x21000000⟩] }).incoming = [] := by decide
/-- `START` injected into the sequencer runs. -/
theorem test_step_injected :
    (stepped { calm [] with incoming := [⟨.sequencer, 0x21000000⟩] }).bus.tokens = mS := by decide
/-- The word placed from outside is the next one executed after reset. -/
theorem test_fetch_word_begin_tx :
    step (State.reset.withFetchWord 32 0x02000200) =
      .next { State.reset with addr := 0x02, txActive := true, response := some .noValue } := rfl
theorem test_fetch_word_runs_uop :
    step (State.reset.withFetchWord 32 0x13000000) = exec .halfDelay State.reset := rfl
theorem test_fetch_word_available :
    step (State.reset.withFetchWord 32 0x07000000) =
      .next { State.reset with response := some (.count 0) } := rfl
/-- V-T18. -/
theorem test_fetch_word_read :
    step (State.reset.withFetchWord 32 0x06000000) =
      .next { State.reset with response := some (.byte 0) } := rfl
/-- The reset input leaves the environment's answers, and no pin event happens (R141). -/
theorem test_reset_input :
    (applyReset twoQueued).txLen = 0 ∧ (applyReset twoQueued).bus.trace = [] ∧
      (applyReset twoQueued).bus.sda.mode = .unconfigured ∧
      (applyReset twoQueued).bus.envSda.script = [false, true] := by decide
/-- The engines of a system step one at a time. -/
theorem test_system_step :
    (System.stepAt 1 [calm [], { calm [] with incoming := [⟨.host, 0x0200FF00⟩] }]).map State.addr =
      [0x02, 0x7F] := by decide

/-! ### Witnesses: a state and operands that meet the hypotheses of each obligation -/

/-- The next word is `BEGIN_TX 0x7F`, written with the ignored bit set. -/
def wordWaiting : State := { calm [] with incoming := [⟨.host, 0x0200FF00⟩] }

theorem witness_EncodeOfDecode_address : decode 0x0200FF00 = .ok (.beginTx 0x7F) := by rfl
theorem witness_EncodeOfDecode_request : decode 0x0500FFFF = .ok (.requestFrom 0x7F 0xFF) := by rfl
theorem witness_EncodeOfDecode_other : decode 0x26000001 = .ok (.readByte true) := by rfl

theorem witness_DecodeFollowsMatchAndMask :
    ∃ r ∈ opcodeRows, r.selectedBy 0x02008200 = true ∧ r.mnemonic = "BEGIN_TX" := by decide

theorem witness_StepExecutesNextWord :
    wordWaiting.incoming = [⟨.host, 0x0200FF00⟩] ∧ decode 0x0200FF00 = .ok (.beginTx 0x7F) ∧
      (Instr.beginTx 0x7F).wellFormedAt .host = true := ⟨rfl, rfl, rfl⟩

theorem witness_IllegalWordOnlyAnswered_no_row :
    ∀ row ∈ opcodeRows, row.selectedBy 0x08000000 = false := by decide
theorem witness_IllegalWordOnlyAnswered_uop :
    ∃ row ∈ uopRows, row.selectedBy 0x21000000 = true := by decide

theorem witness_RestWithoutCommand : (calm []).incoming = [] := rfl

theorem witness_DriveLowPullsLine_low : (calm []).params.outLatch = .low := rfl
theorem witness_DriveLowPullsLine_high :
    ({ calm [] with params := ⟨1, 4, 5, .high, false⟩ } : State).params.outLatch = .high := rfl

theorem witness_DriveLowPullsLine_any :
    ({ calm [] with params := ⟨1, 4, 5, .any, false⟩ } : State).params.outLatch = .any := rfl

theorem witness_DelaysWriteNoState :
    (Instr.halfDelay = .halfDelay ∧ Event.half = .half ∧ (0x13000000 : CmdWord) = 0x13000000) ∧
      (Instr.pollDelay = .pollDelay ∧ Event.poll = .poll ∧ (0x14000000 : CmdWord) = 0x14000000) ∧
      (Instr.stabilizeWait = .stabilizeWait ∧ Event.stabilize = .stabilize ∧
        (0x15000000 : CmdWord) = 0x15000000) := by decide

/-- Clause 1 at its first and its last `j`, clause 2; the bound is 3. -/
theorem witness_SclReleaseWaitFollowsAnswers :
    (bench 3 [] [true]).bus.envScl = ⟨List.replicate 0 false ++ true :: [], 0⟩ ∧
      (bench 3 [] [false, false, true]).bus.envScl = ⟨List.replicate 2 false ++ true :: [], 0⟩ ∧
      (bench 3 [] [false, false, false, true]).bus.envScl = ⟨List.replicate 3 false ++ [true], 0⟩ := by
  decide

theorem witness_ReadByteAssemblesBits :
    (calm [true, false, true, false, false, true, false, true, true]).bus.envSda =
      ⟨msbFirst 0xA5 ++ [true], 0⟩ := by decide

theorem witness_HalfDelayAfterEveryTransition : ∃ v, Instr.writeByte 0xFF = .writeByte v := ⟨0xFF, rfl⟩
theorem witness_DataLineSampleCounts : ∃ ack, Instr.readByte false = .readByte ack := ⟨false, rfl⟩
theorem witness_NominalDurations : ∃ v, Instr.writeByte 0xFF = .writeByte v ∧ (135 : Nat) = 135 :=
  ⟨0xFF, rfl, rfl⟩

/-- The clock stretched beyond the bound in one, free in the other. -/
theorem witness_StretchingNeverShows :
    Instr.endTx ≠ .sample .scl ∧
      SameButClock (bench 3 [false] [false, false, false]) (bench 1 [false] [true]) :=
  ⟨by decide, ⟨rfl, rfl, rfl, rfl, rfl, rfl, rfl, rfl, rfl, rfl⟩⟩

theorem witness_MicroOperationsUseOnlyBus :
    Instr.isApi (.writeByte 0) = false ∧ twoQueued.bus = (calm [false, true]).bus ∧
      twoQueued.params = (calm [false, true]).params := ⟨rfl, rfl, rfl⟩

/-- Both branches at the place where they meet. -/
theorem witness_WriteAppendsOrDrops :
    ({ calm [] with txLen := 31 } : State).txLen.val < 32 ∧
      ({ calm [] with txLen := 32 } : State).txLen.val = 32 := by decide

/-- The three clauses, for two queued bytes; the second at its first and its last `j`. -/
theorem witness_EndTxStatusFollowsAcks :
    ({ twoQueued with bus := (calm [true]).bus } : State).bus.envSda = ⟨true :: [], 0⟩ ∧
      twoQueued.bus.envSda = ⟨List.replicate (0 + 1) false ++ true :: [], 0⟩ ∧
      (calm [false, false, true]).bus.envSda = ⟨List.replicate (1 + 1) false ++ true :: [], 0⟩ ∧
      (1 : Nat) < twoQueued.txLen.val ∧
      (calm [false, false, false]).bus.envSda =
        ⟨List.replicate (twoQueued.txLen.val + 1) false ++ [], 0⟩ := by decide

/-- A transaction from an idle bus without a timeout, for each status. -/
theorem witness_EndTxOnTheWire_ok :
    Idle (calm [false]).bus ∧ (after .endTx (calm [false])).response = some (.status .ok) ∧
      (after .endTx (calm [false])).bus.stretchTimedOut = false := ⟨⟨rfl, rfl, rfl⟩, by decide +kernel⟩
theorem witness_EndTxOnTheWire_address_nack :
    Idle (calm [true]).bus ∧ (after .endTx (calm [true])).response = some (.status .addrNack) ∧
      (after .endTx (calm [true])).bus.stretchTimedOut = false := ⟨⟨rfl, rfl, rfl⟩, by decide +kernel⟩
theorem witness_EndTxOnTheWire_data_nack :
    Idle twoQueued.bus ∧ (after .endTx twoQueued).response = some (.status .dataNack) ∧
      (after .endTx twoQueued).bus.stretchTimedOut = false := ⟨⟨rfl, rfl, rfl⟩, by decide +kernel⟩

theorem witness_RequestFromReceivesBytes :
    [(0xA5 : Byte)].length = min (1 : Byte).toNat 32 ∧
      oneByte.bus.envSda = ⟨false :: ([0xA5].flatMap msbFirst ++ []), 0⟩ := by decide

theorem witness_RequestFromOnTheWire :
    Idle oneByte.bus ∧ (oneByte.bus.envSda.next 4).1 = false ∧
      (after (.requestFrom 0x68 1) oneByte).bus.stretchTimedOut = false := ⟨⟨rfl, rfl, rfl⟩, by decide +kernel⟩
theorem witness_RequestFromOnTheWire_nack :
    Idle (calm [true]).bus ∧ ((calm [true]).bus.envSda.next 4).1 = true ∧
      (after (.requestFrom 0x68 1) (calm [true])).bus.stretchTimedOut = false :=
  ⟨⟨rfl, rfl, rfl⟩, by decide +kernel⟩

/-- Both branches at the place where they meet. -/
theorem witness_ReadTakesNextByte_unread :
    ({ calm [] with rxLen := 32, rxCur := 31 } : State).rxCur.val <
      ({ calm [] with rxLen := 32, rxCur := 31 } : State).rxLen.val := by decide
theorem witness_ReadTakesNextByte_empty :
    ({ calm [] with rxLen := 32, rxCur := 32 } : State).rxLen.val ≤
      ({ calm [] with rxLen := 32, rxCur := 32 } : State).rxCur.val := by decide

theorem witness_TransactionPhaseSequence :
    Instr.endTx = .endTx ∧ ∃ a count, Instr.requestFrom 0x68 1 = .requestFrom a count :=
  ⟨rfl, _, _, rfl⟩

theorem witness_StepKeepsInv : Inv wordWaiting ∧ ∃ t, step wordWaiting = .next t :=
  ⟨⟨by decide, by decide, by decide, by decide⟩, _, rfl⟩

theorem witness_HostCommandsKeepIdle :
    HostOnly wordWaiting ∧ Idle wordWaiting.bus ∧ ∃ t, step wordWaiting = .next t := by
  refine ⟨?_, ⟨rfl, rfl, rfl⟩, _, rfl⟩
  intro r hr
  obtain rfl := List.mem_singleton.1 hr
  rfl

theorem witness_LowLatchNeverDrivesHigh : twoQueued.params.outLatch = .low := rfl

/-- Each clause of the level function: the pin in the mode, for both latch values where they matter. -/
theorem witness_WireLevelTable :
    (driven.bus.pin .sda).mode = .outLow ∧ (driven.bus.pin .scl).mode = .inPullup ∧
      ((driven.bus.setPin .sda ⟨.outLatch, true⟩).pin .sda).mode = .outLatch ∧
      ((driven.bus.setPin .sda ⟨.outLatch, true⟩).pin .sda).latch = true ∧
      ((driven.bus.setPin .sda ⟨.outLatch, false⟩).pin .sda).latch = false ∧
      (State.reset.bus.pin .sda).mode = .unconfigured := ⟨rfl, rfl, rfl, rfl, rfl, rfl⟩

/-- The cell above the queued bytes differs. -/
theorem witness_StaleCellsNeverShow :
    SameButStale twoQueued { twoQueued with txBuf := twoQueued.txBuf.set 2 0x33 } :=
  ⟨rfl, by decide, rfl⟩

theorem witness_EnginesAreIndependent_shared :
    ¬ (([⟨1, 4, 5, .any, false⟩, ⟨1, 5, 6, .any, false⟩] : List Params).flatMap Params.pins).Nodup := by
  decide
/-- The least stretch bound and neighbouring pins. -/
theorem witness_EnginesAreIndependent_disjoint :
    (∀ p ∈ ([⟨1, 4, 5, .any, false⟩, ⟨1, 6, 7, .any, false⟩] : List Params),
      p.sdaPin ≠ p.sclPin ∧ 1 ≤ p.stretchMaxPolls) ∧
      (([⟨1, 4, 5, .any, false⟩, ⟨1, 6, 7, .any, false⟩] : List Params).flatMap Params.pins).Nodup := by
  decide
theorem witness_EnginesAreIndependent_built :
    (System.build [⟨1, 4, 5, .any, false⟩, ⟨1, 6, 7, .any, false⟩]).isSome = true := by decide
theorem witness_EnginesAreIndependent_step :
    ([calm [], wordWaiting] : System)[1]? = some wordWaiting ∧ ∃ t, step wordWaiting = .next t :=
  ⟨rfl, _, rfl⟩
theorem witness_EnginesAreIndependent_other : (0 : Nat) ≠ 1 := by decide

end Sys2Proof.Tests
end

/-! PROOFS. The state: the invariants every step keeps, reset, what no operation reads, the phases of a
transaction, and several engines (spec/10_state.md). -/

namespace Sys2Proof.StateProofs

open Sys2Proof.Machine Sys2Proof.Laws

/-! ### The step -/

/-- A step answers a next state with the same parameters. -/
theorem step_next (s : State) : ∃ t, step s = .next t ∧ t.params = s.params := by
  rcases step_cases s with ⟨-, h⟩ | ⟨r, rest, -, -, h⟩ | ⟨r, rest, i, -, -, -, h⟩
  · exact ⟨s, h, rfl⟩
  · exact ⟨_, h, rfl⟩
  · obtain ⟨t, hexec, -, hparams, -⟩ := exec_next i { s with incoming := rest }
    exact ⟨t, h.trans hexec, hparams⟩

/-- `exec_next` read from the outcome: an operation takes no further word and keeps the parameters. -/
theorem exec_frame {i : Instr} {s t : State} (h : exec i s = .next t) :
    t.incoming = s.incoming ∧ t.params = s.params := by
  obtain ⟨u, hu, hincoming, hparams, -⟩ := exec_next i s
  obtain rfl := Host.Outcome.next.inj (h.symm.trans hu)
  exact ⟨hincoming, hparams⟩

/-- Settles O7: the other two cases of a step take a word that is waiting. -/
theorem restWithoutCommand : Obligations.RestWithoutCommand := by
  intro s hs
  rcases step_cases s with ⟨-, h⟩ | ⟨r, rest, hcons, -⟩ | ⟨r, rest, i, hcons, -⟩
  · exact h
  · simp [hs] at hcons
  · simp [hs] at hcons

/-! ### Reset -/

theorem configParams_wellFormed : Config.params.wellFormed = true := by
  have hpins : Config.sdaPin ≠ Config.sclPin := by
    unfold Config.sdaPin Config.sclPin Config.upperPin
    split <;> omega
  have hpolls : 1 ≤ Config.stretchMaxPolls := Nat.le_add_left 1 _
  simp [Params.wellFormed, Config.params, hpins, hpolls]

/-- Settles O40: the cursor and the length are 0, both pins unconfigured. -/
theorem resetHasInv : Obligations.ResetHasInv :=
  ⟨Nat.le_refl _, configParams_wellFormed, PinMode.noConfusion, PinMode.noConfusion⟩

/-- Settles O42: each value stands in `State.construct`, and `applyReset` constructs anew. -/
theorem resetValues : Obligations.ResetValues :=
  ⟨rfl, rfl, rfl, rfl, rfl, rfl, rfl, rfl, fun _ => ⟨rfl, rfl, rfl, rfl, rfl, rfl, rfl, rfl, rfl⟩⟩

/-! ### Both lines released after a transaction -/

theorem idle_stopCondition (p : Params) (b : Bus) : Idle (stopCondition p b) := by
  simp [Idle]

theorem idle_writeTransaction (p : Params) (a : Addr) (data : List Byte) (b : Bus) :
    Idle (writeTransaction p a data b).2 := by
  rw [writeTransaction_eq]
  split <;> exact idle_stopCondition p _

theorem idle_readTransaction (p : Params) (a : Addr) (n : Nat) (rx : Vector Byte 32) (b : Bus) :
    Idle (readTransaction p a n rx b).bus := by
  rw [readTransaction_eq]
  split <;> exact idle_stopCondition p _

/-- Of the host's commands three act on the pins: the two transactions end with `Stop`, `BEGIN` releases both
lines and keeps the phase. -/
theorem exec_api_keepsIdle {i : Instr} {s t : State} (hapi : i.isApi = true) (hs : Idle s.bus)
    (h : exec i s = .next t) : Idle t.bus := by
  cases i with
  | beginBus =>
    obtain rfl := Host.Outcome.next.inj h
    obtain ⟨hphase, -⟩ := hs
    simp [Idle, hphase]
  | endTx =>
    obtain rfl := Host.Outcome.next.inj h
    exact idle_writeTransaction _ _ _ _
  | requestFrom a count =>
    obtain rfl := Host.Outcome.next.inj h
    exact idle_readTransaction _ _ _ _ _
  | write b =>
    obtain rfl := Host.Outcome.next.inj h
    simpa using hs
  | read =>
    obtain rfl := Host.Outcome.next.inj h
    simpa using hs
  | beginTx a =>
    obtain rfl := Host.Outcome.next.inj h
    exact hs
  | available =>
    obtain rfl := Host.Outcome.next.inj h
    exact hs
  | _ => cases hapi

/-- Settles O41: a word of the host is an `API` command or is refused, and either keeps both lines released. -/
theorem hostCommandsKeepIdle : Obligations.HostCommandsKeepIdle := by
  intro s t hhost hidle hstep
  have htail : ∀ {r : Request} {rest : List Request}, s.incoming = r :: rest →
      r.port = .host ∧ ∀ q ∈ rest, q.port = .host := by
    intro r rest hcons
    simpa [HostOnly, hcons] using hhost
  rcases step_cases s with ⟨-, h⟩ | ⟨r, rest, hcons, -, h⟩ | ⟨r, rest, i, hcons, -, hport, h⟩
  · obtain rfl := Host.Outcome.next.inj (h.symm.trans hstep)
    exact ⟨hhost, hidle⟩
  · obtain rfl := Host.Outcome.next.inj (h.symm.trans hstep)
    exact ⟨(htail hcons).2, hidle⟩
  · have hexec := h.symm.trans hstep
    obtain ⟨hr, hrest⟩ := htail hcons
    have hapi : i.isApi = true := by simpa [Instr.wellFormedAt, hr] using hport
    refine ⟨?_, exec_api_keepsIdle (s := { s with incoming := rest }) hapi hidle hexec⟩
    intro q hq
    rw [(exec_frame hexec).1] at hq
    exact hrest q hq

/-! ### The invariant -/

/-- No pin is in the transient of `DriveLow` (spec/10_state.md R21). -/
def Settled (b : Bus) : Prop := b.sda.mode ≠ .outLatch ∧ b.scl.mode ≠ .outLatch

theorem Settled.of_idle {b : Bus} (h : Idle b) : Settled b := by
  obtain ⟨-, hsda, hscl⟩ := h
  simp [Settled, hsda, hscl]

theorem Settled.driveLow {b : Bus} (h : Settled b) (p : Params) (l : Line) : Settled (driveLow p l b) := by
  obtain ⟨hsda, hscl⟩ := h
  cases l <;> simp [Settled, hsda, hscl]

theorem Settled.release {b : Bus} (h : Settled b) (l : Line) : Settled (release l b) := by
  obtain ⟨hsda, hscl⟩ := h
  cases l <;> simp [Settled, hsda, hscl]

theorem Settled.sample {b : Bus} (h : Settled b) (p : Params) (l : Line) : Settled (sample p l b).2 := by
  obtain ⟨hsda, hscl⟩ := h
  cases l <;> simp [Settled, hsda, hscl]

theorem Settled.sclReleaseWait {b : Bus} (h : Settled b) (p : Params) : Settled (sclReleaseWait p b) := by
  obtain ⟨hsda, -⟩ := h
  simp [Settled, hsda]

theorem settled_startCondition (p : Params) (b : Bus) : Settled (startCondition p b) := by
  simp [Settled]

theorem settled_writeBit (p : Params) (v : Level) (b : Bus) : Settled (writeBit p v b) := by
  cases v <;> simp [Settled]

theorem settled_readBit (p : Params) (b : Bus) : Settled (readBit p b).2 := by
  simp [Settled]

theorem settled_writeByte (p : Params) (role : ByteRole) (v : Byte) (b : Bus) :
    Settled (writeByte p role v b).2 := by
  simp [Settled]

theorem settled_readByte (p : Params) (ack : Bool) (b : Bus) : Settled (readByte p ack b).2 := by
  cases ack <;> simp [Settled]

/-- Every operation that acts on a pin completes: it leaves the pin released or driven low. -/
theorem exec_keepsSettled {i : Instr} {s t : State} (hs : Settled s.bus) (h : exec i s = .next t) :
    Settled t.bus := by
  cases i <;> obtain rfl := Host.Outcome.next.inj h
  case beginBus => exact (hs.release .sda).release .scl
  case beginTx => exact hs
  case write => simpa using hs
  case endTx => exact .of_idle (idle_writeTransaction _ _ _ _)
  case requestFrom => exact .of_idle (idle_readTransaction _ _ _ _ _)
  case read => simpa using hs
  case available => exact hs
  case driveLow l => exact hs.driveLow _ l
  case release l => exact hs.release l
  case sample l => exact hs.sample _ l
  case halfDelay => exact hs
  case pollDelay => exact hs
  case stabilizeWait => exact hs
  case sclReleaseWait => exact hs.sclReleaseWait _
  case start => exact settled_startCondition _ _
  case stop => exact .of_idle (idle_stopCondition _ _)
  case writeBit v => exact settled_writeBit _ v _
  case readBit => exact settled_readBit _ _
  case writeByte v => exact settled_writeByte _ _ v _
  case readByte ack => exact settled_readByte _ ack _

/-- `READ` moves the cursor only below the length. -/
theorem advanceRx_rxCur_le {s : State} (hs : s.rxCur.val ≤ s.rxLen.val) :
    s.advanceRx.rxCur.val ≤ s.rxLen.val := by
  rcases Nat.lt_or_ge s.rxCur.val s.rxLen.val with hlt | hge
  · rw [advanceRx_rxCur s hlt]
    exact hlt
  · rwa [advanceRx_empty s hge]

/-- The cursor is moved by `READ` and put at 0 by `REQUEST_FROM`, which alone writes the length. -/
theorem exec_keepsCursor {i : Instr} {s t : State} (hs : s.rxCur.val ≤ s.rxLen.val)
    (h : exec i s = .next t) : t.rxCur.val ≤ t.rxLen.val := by
  cases i <;> obtain rfl := Host.Outcome.next.inj h
  case requestFrom => exact Nat.zero_le _
  case read => simpa using advanceRx_rxCur_le hs
  case write => simpa using hs
  all_goals exact hs

theorem exec_keepsInv {i : Instr} {s t : State} (hs : Inv s) (h : exec i s = .next t) : Inv t := by
  obtain ⟨hcursor, hparams, hpins⟩ := hs
  exact ⟨exec_keepsCursor hcursor h, (exec_frame h).2 ▸ hparams, exec_keepsSettled hpins h⟩

/-- Settles O39: taking a word and refusing it touch nothing `Inv` speaks of, and every operation keeps it. -/
theorem stepKeepsInv : Obligations.StepKeepsInv := by
  intro s t hs hstep
  rcases step_cases s with ⟨-, h⟩ | ⟨r, rest, -, -, h⟩ | ⟨r, rest, i, -, -, -, h⟩
  · obtain rfl := Host.Outcome.next.inj (h.symm.trans hstep)
    exact hs
  · obtain rfl := Host.Outcome.next.inj (h.symm.trans hstep)
    exact hs
  · exact exec_keepsInv (s := { s with incoming := rest }) hs (h.symm.trans hstep)

end Sys2Proof.StateProofs
namespace Sys2Proof.StateProofs

open Sys2Proof.Machine Sys2Proof.Laws

/-! ### Operations on the line side -/

/-- The operation reads and writes nothing but the line side. -/
def LineOnly (i : Instr) : Prop :=
  ∃ f : Params → Bus → Bus × Response, ∀ s : State,
    exec i s = .next (s.finish (f s.params s.bus).1 (f s.params s.bus).2)

theorem lineOnly_beginBus : LineOnly .beginBus :=
  ⟨fun _ b => (stabilizeWait (release .scl (release .sda b)), .noValue), fun _ => rfl⟩

/-- Opening paragraphs of spec/40_line_primitives.md and spec/41_protocol_primitives.md. -/
theorem lineOnly_microOperation {i : Instr} (h : i.isApi = false) : LineOnly i := by
  cases i with
  | driveLow l => exact ⟨fun p b => (driveLow p l b, .noValue), fun _ => rfl⟩
  | release l => exact ⟨fun _ b => (release l b, .noValue), fun _ => rfl⟩
  | sample l => exact ⟨fun p b => ((sample p l b).2, .level (sample p l b).1), fun _ => rfl⟩
  | halfDelay => exact ⟨fun _ b => (halfDelay b, .noValue), fun _ => rfl⟩
  | pollDelay => exact ⟨fun _ b => (pollDelay b, .noValue), fun _ => rfl⟩
  | stabilizeWait => exact ⟨fun _ b => (stabilizeWait b, .noValue), fun _ => rfl⟩
  | sclReleaseWait => exact ⟨fun p b => (sclReleaseWait p b, .noValue), fun _ => rfl⟩
  | start => exact ⟨fun p b => (startCondition p b, .noValue), fun _ => rfl⟩
  | stop => exact ⟨fun p b => (stopCondition p b, .noValue), fun _ => rfl⟩
  | writeBit v => exact ⟨fun p b => (writeBit p v b, .noValue), fun _ => rfl⟩
  | readBit => exact ⟨fun p b => ((readBit p b).2, .bit (readBit p b).1), fun _ => rfl⟩
  | writeByte v =>
    exact ⟨fun p b =>
      ((writeByte p (injectedRole p b) v { b with draws := b.draws + 1 }).2,
        .acked (writeByte p (injectedRole p b) v { b with draws := b.draws + 1 }).1), fun _ => rfl⟩
  | readByte ack => exact ⟨fun p b => ((readByte p ack b).2, .byte (readByte p ack b).1), fun _ => rfl⟩
  | _ => cases h

/-! ### `TXACTIVE` -/

theorem pushTx_txActive_irrelevant (s : State) (flag : Bool) (b : Byte) :
    State.pushTx { s with txActive := flag } b = { s.pushTx b with txActive := flag } := by
  unfold State.pushTx
  split <;> rfl

theorem advanceRx_txActive_irrelevant (s : State) (flag : Bool) :
    State.advanceRx { s with txActive := flag } = { s.advanceRx with txActive := flag } := by
  unfold State.advanceRx
  split <;> rfl

/-- Settles O36: the flag is written by `BEGIN_TX` and `END_TX` and carried along by everything else. -/
theorem txActiveGatesNothing : Obligations.TxActiveGatesNothing := by
  intro i s flag
  have hline : ∀ {j : Instr}, LineOnly j → ∃ t t', exec j s = .next t ∧
      exec j { s with txActive := flag } = .next t' ∧ t'.response = t.response ∧ t'.bus = t.bus ∧
      t = { t' with txActive := t.txActive } := by
    rintro j ⟨f, hf⟩
    exact ⟨_, _, hf _, hf _, rfl, rfl, rfl⟩
  cases i with
  | beginBus => exact hline lineOnly_beginBus
  | beginTx a => exact ⟨_, _, rfl, rfl, rfl, rfl, rfl⟩
  | write b =>
    exact ⟨_, _, rfl, congrArg (Host.Outcome.next <| State.respond · _) (pushTx_txActive_irrelevant s flag b),
      rfl, rfl, rfl⟩
  | endTx => exact ⟨_, _, rfl, rfl, rfl, rfl, rfl⟩
  | requestFrom a count => exact ⟨_, _, rfl, rfl, rfl, rfl, rfl⟩
  | read =>
    exact ⟨_, _, rfl, congrArg (Host.Outcome.next <| State.respond · _) (advanceRx_txActive_irrelevant s flag),
      rfl, rfl, rfl⟩
  | available => exact ⟨_, _, rfl, rfl, rfl, rfl, rfl⟩
  | _ => exact hline (lineOnly_microOperation rfl)

end Sys2Proof.StateProofs

/-! ### Stale buffer cells -/

namespace Sys2Proof.Machine

open Sys2Proof.Laws Sys2Proof.StateProofs

variable {s t : State}

/-- The states that differ from `s` in stale cells only are `s` with other buffers that agree with it below
the lengths. -/
theorem SameButStale.exists_buffers (h : SameButStale s t) :
    ∃ tx rx, t = { s with txBuf := tx, rxBuf := rx } ∧
      tx.toList.take s.txLen.val = s.txBuf.toList.take s.txLen.val ∧
      rx.toList.take s.rxLen.val = s.rxBuf.toList.take s.rxLen.val := by
  obtain ⟨hrest, hqueued, hreceived⟩ := h
  have htx : t.txLen = s.txLen := by rw [hrest]
  have hrx : t.rxLen = s.rxLen := by rw [hrest]
  rw [State.queued, State.queued, htx] at hqueued
  rw [hrx] at hreceived
  exact ⟨t.txBuf, t.rxBuf, hrest, hqueued, hreceived⟩

theorem SameButStale.respond (h : SameButStale s t) (r : Response) :
    SameButStale (s.respond r) (t.respond r) := by
  obtain ⟨tx, rx, rfl, htx, hrx⟩ := h.exists_buffers
  exact ⟨rfl, htx, hrx⟩

theorem SameButStale.lineOnly (h : SameButStale s t) {i : Instr} (hi : LineOnly i) :
    ∃ s' t', exec i s = .next s' ∧ exec i t = .next t' ∧ SameButStale s' t' := by
  obtain ⟨f, hf⟩ := hi
  obtain ⟨tx, rx, rfl, htx, hrx⟩ := h.exists_buffers
  exact ⟨_, _, hf _, hf _, rfl, htx, hrx⟩

/-- `WRITE` puts the same byte behind the same queued bytes. -/
theorem SameButStale.pushTx (h : SameButStale s t) (b : Byte) :
    SameButStale (s.pushTx b) (t.pushTx b) := by
  have hlen : t.txLen = s.txLen := by rw [h.rest]
  have hrx : t.rxLen = s.rxLen := by rw [h.rest]
  rcases Nat.lt_or_ge s.txLen.val 32 with hlt | hge
  · refine ⟨?_, ?_, by simpa using h.received⟩
    · obtain ⟨tx, rx, rfl, -⟩ := h.exists_buffers
      simp [State.pushTx, hlt]
    · rw [pushTx_queued s b hlt, pushTx_queued t b (hlen ▸ hlt), h.queued]
  · have hfull : s.txLen.val = 32 := by omega
    rwa [pushTx_full s b hfull, pushTx_full t b (hlen ▸ hfull)]

theorem SameButStale.advanceRx (h : SameButStale s t) : SameButStale s.advanceRx t.advanceRx := by
  obtain ⟨tx, rx, rfl, htx, hrx⟩ := h.exists_buffers
  refine ⟨?_, by simpa [State.queued] using htx, by simpa using hrx⟩
  unfold State.advanceRx
  split <;> rfl

/-- An unread byte stands below the length. -/
theorem SameButStale.nextUnread (h : SameButStale s t) : t.nextUnread = s.nextUnread := by
  obtain ⟨tx, rx, rfl, -, hrx⟩ := h.exists_buffers
  by_cases hlt : s.rxCur.val < s.rxLen.val
  · have hcell := congrArg (·[s.rxCur.val]?) hrx
    have h32 : s.rxCur.val < 32 := by omega
    simpa [List.getElem?_take, hlt, h32, State.nextUnread] using hcell
  · simp [State.nextUnread, hlt]

end Sys2Proof.Machine

namespace Sys2Proof.StateProofs

open Sys2Proof.Machine Sys2Proof.Laws

/-- Cells that agree below `k` agree below `k + 1` when the same byte is written behind them. -/
theorem take_setIfInBounds_congr {xs ys : Vector Byte 32} {k : Nat}
    (h : xs.toList.take k = ys.toList.take k) (v : Byte) :
    (xs.setIfInBounds k v).toList.take (k + 1) = (ys.setIfInBounds k v).toList.take (k + 1) := by
  rcases Nat.lt_or_ge k 32 with hk | hk
  · simp [List.take_add_one, List.take_set_of_le, h, hk]
  · have hxs : xs.toList = ys.toList := by
      rwa [List.take_of_length_le (by simpa using hk), List.take_of_length_le (by simpa using hk)] at h
    rw [Vector.toList_inj.1 hxs]

/-- The loop of `REQUEST_FROM` reads no receive cell, and the cells it has written do not depend on what
they held. -/
theorem receivedUpto_cells_irrelevant (p : Params) (n : Nat) (rx ry : Vector Byte 32) (b : Bus) (k : Nat) :
    (receivedUpto p n rx b k).2 = (receivedUpto p n ry b k).2 ∧
      (receivedUpto p n rx b k).1.toList.take k = (receivedUpto p n ry b k).1.toList.take k := by
  induction k with
  | zero => exact ⟨rfl, rfl⟩
  | succ k ih =>
    obtain ⟨hbus, hcells⟩ := ih
    rw [receivedUpto_succ, receivedUpto_succ, hbus]
    exact ⟨rfl, take_setIfInBounds_congr hcells _⟩

/-- What a read transaction leaves does not depend on the receive cells, but for those it does not write. -/
theorem readTransaction_cells_irrelevant (p : Params) (a : Addr) (n : Nat) (rx ry : Vector Byte 32) (b : Bus) :
    (readTransaction p a n rx b).addressAcked = (readTransaction p a n ry b).addressAcked ∧
      (readTransaction p a n rx b).bus = (readTransaction p a n ry b).bus ∧
      ((readTransaction p a n rx b).addressAcked = true →
        (readTransaction p a n rx b).cells.toList.take n =
          (readTransaction p a n ry b).cells.toList.take n) := by
  obtain ⟨hbus, hcells⟩ := receivedUpto_cells_irrelevant p n rx ry (addressSent p a .read b).2 n
  simp only [readTransaction_eq, receiveBytes_eq]
  split
  · exact ⟨rfl, by rw [hbus], fun _ => hcells⟩
  · exact ⟨rfl, rfl, nofun⟩

/-- `REQUEST_FROM` sets the length to the number of cells it has written. -/
theorem exec_requestFrom_sameButStale {s t : State} (h : SameButStale s t) (a : Addr) (count : Byte) :
    ∃ s' t', exec (.requestFrom a count) s = .next s' ∧ exec (.requestFrom a count) t = .next t' ∧
      SameButStale s' t' := by
  obtain ⟨tx, rx, rfl, htx, -⟩ := h.exists_buffers
  obtain ⟨hacked, hbus, hcells⟩ := readTransaction_cells_irrelevant s.params a (clampCount count).val
    s.rxBuf rx s.bus
  refine ⟨_, _, rfl, rfl, ?_, htx, ?_⟩
  · simp only [← hacked, ← hbus]
    rfl
  · simp only [finish_rxLen, finish_rxBuf, ← hacked]
    split
    next hack => exact (hcells hack).symm
    next => rfl

/-- Settles O50: `END_TX` reads the queued bytes alone, `READ` a byte below the length, and the writes of
`WRITE` and `REQUEST_FROM` extend initial parts that agree. -/
theorem staleCellsNeverShow : Obligations.StaleCellsNeverShow := by
  intro i s t hst
  obtain ⟨tx, rx, rfl, htx, hrx⟩ := hst.exists_buffers
  cases i with
  | beginBus => exact hst.lineOnly lineOnly_beginBus
  | beginTx a => exact ⟨_, _, rfl, rfl, rfl, rfl, hrx⟩
  | write b => exact ⟨_, _, rfl, rfl, (hst.pushTx b).respond _⟩
  | endTx =>
    have hqueued : State.queued { s with txBuf := tx, rxBuf := rx } = s.queued := hst.queued
    refine ⟨_, _, rfl, rfl, ?_, rfl, hrx⟩
    simp only [hqueued]
    rfl
  | requestFrom a count => exact exec_requestFrom_sameButStale hst a count
  | read => exact ⟨_, _, rfl, congrArg (Host.Outcome.next <| State.respond _ <| .byte ·) hst.nextUnread,
      hst.advanceRx.respond _⟩
  | available => exact ⟨_, _, rfl, rfl, rfl, htx, hrx⟩
  | _ => exact hst.lineOnly (lineOnly_microOperation rfl)

/-! ### Several engines -/

theorem wellFormed_iff (p : Params) :
    p.wellFormed = true ↔ p.sdaPin ≠ p.sclPin ∧ 1 ≤ p.stretchMaxPolls := by
  simp [Params.wellFormed]

theorem systemWellFormed_iff (ps : List Params) :
    systemWellFormed ps = true ↔
      (∀ p ∈ ps, p.sdaPin ≠ p.sclPin ∧ 1 ≤ p.stretchMaxPolls) ∧ (ps.flatMap Params.pins).Nodup := by
  simp [systemWellFormed, wellFormed_iff]

theorem build_eq_some_iff (ps : List Params) (sys : System) :
    System.build ps = some sys ↔
      systemWellFormed ps = true ∧ sys = ps.map fun p => State.construct p 0 := by
  rw [System.build, Option.ite_none_right_eq_some, Option.some_inj, eq_comm (a := sys)]

theorem build_eq_none {ps : List Params} (h : ¬ systemWellFormed ps = true) : System.build ps = none :=
  if_neg h

theorem stepAt_eq_set {k : Nat} {sys : System} {s t : State} (hk : sys[k]? = some s)
    (hstep : step s = .next t) : System.stepAt k sys = sys.set k t := by
  simp [System.stepAt, hk, hstep]

/-- Whatever number is stepped, at most the engine at that place changes, and not its parameters. -/
theorem stepAt_frame (k : Nat) (sys : System) :
    (System.stepAt k sys).length = sys.length ∧
      (∀ j, j ≠ k → (System.stepAt k sys)[j]? = sys[j]?) ∧
      (System.stepAt k sys).map State.params = sys.map State.params := by
  cases hk : sys[k]? with
  | none => simp [System.stepAt, hk]
  | some s =>
    obtain ⟨t, hstep, hparams⟩ := step_next s
    rw [stepAt_eq_set hk hstep]
    refine ⟨List.length_set, fun j hj => List.getElem?_set_ne hj.symm, ?_⟩
    obtain ⟨hlt, rfl⟩ := List.getElem?_eq_some_iff.1 hk
    rw [List.map_set, hparams, ← List.getElem_map State.params (h := by simpa using hlt), List.set_getElem_self]

/-- Settles O51: a system is built exactly when its parameters stand together, and stepping sets one place. -/
theorem enginesAreIndependent : Obligations.EnginesAreIndependent := by
  refine ⟨?_, ?_, ?_, ?_, stepAt_frame⟩
  · intro ps hshared
    exact build_eq_none fun h => hshared ((systemWellFormed_iff ps).1 h).2
  · intro ps hparams hpins
    exact (build_eq_some_iff ps _).2 ⟨(systemWellFormed_iff ps).2 ⟨hparams, hpins⟩, rfl⟩
  · intro ps sys hbuild
    obtain ⟨hwf, rfl⟩ := (build_eq_some_iff ps sys).1 hbuild
    refine ⟨rfl, ?_⟩
    simpa [List.flatMap_map] using ((systemWellFormed_iff ps).1 hwf).2
  · intro k sys s t hk hstep
    obtain ⟨hlt, -⟩ := List.getElem?_eq_some_iff.1 hk
    rw [stepAt_eq_set hk hstep, List.getElem?_set_self hlt]

end Sys2Proof.StateProofs

/-! ### Two runs that differ in `PHASE` only -/

namespace Sys2Proof.StateProofs

open Sys2Proof.Machine Sys2Proof.Laws

/-- Two line sides that agree in everything but `PHASE` and the `PHASE` column of the trace. -/
structure Alike (b c : Bus) : Prop where
  sda : c.sda = b.sda
  scl : c.scl = b.scl
  envSda : c.envSda = b.envSda
  envScl : c.envScl = b.envScl
  draws : c.draws = b.draws
  stretchTimedOut : c.stretchTimedOut = b.stretchTimedOut
  events : c.events = b.events

/-- The same result, and line sides alike after it. -/
def AlikeResult {α : Type} (x y : α × Bus) : Prop := y.1 = x.1 ∧ Alike x.2 y.2

theorem alike_setPhase (b : Bus) (q : Phase) : Alike b (b.setPhase q) :=
  ⟨rfl, rfl, rfl, rfl, rfl, rfl, rfl⟩

section
variable {p : Params} {b c : Bus}

/-! The shared updates of the line side. -/

theorem Alike.setPhase (h : Alike b c) (q r : Phase) : Alike (b.setPhase q) (c.setPhase r) :=
  ⟨h.sda, h.scl, h.envSda, h.envScl, h.draws, h.stretchTimedOut, h.events⟩

theorem Alike.emit (h : Alike b c) (e : Event) : Alike (b.emit e) (c.emit e) :=
  ⟨h.sda, h.scl, h.envSda, h.envScl, h.draws, h.stretchTimedOut, by simp [h.events]⟩

theorem Alike.setDraws (h : Alike b c) (n : Nat) : Alike { b with draws := n } { c with draws := n } :=
  ⟨h.sda, h.scl, h.envSda, h.envScl, rfl, h.stretchTimedOut, h.events⟩

theorem Alike.timedOut (h : Alike b c) :
    Alike { b with stretchTimedOut := true } { c with stretchTimedOut := true } :=
  ⟨h.sda, h.scl, h.envSda, h.envScl, h.draws, rfl, h.events⟩

theorem Alike.setPin (h : Alike b c) (l : Line) (q : Pin) : Alike (b.setPin l q) (c.setPin l q) := by
  cases l
  · exact ⟨rfl, h.scl, h.envSda, h.envScl, h.draws, h.stretchTimedOut, h.events⟩
  · exact ⟨h.sda, rfl, h.envSda, h.envScl, h.draws, h.stretchTimedOut, h.events⟩

theorem Alike.setEnv (h : Alike b c) (l : Line) (e : EnvStream) : Alike (b.setEnv l e) (c.setEnv l e) := by
  cases l
  · exact ⟨h.sda, h.scl, rfl, h.envScl, h.draws, h.stretchTimedOut, h.events⟩
  · exact ⟨h.sda, h.scl, h.envSda, rfl, h.draws, h.stretchTimedOut, h.events⟩

theorem Alike.pin (h : Alike b c) (l : Line) : c.pin l = b.pin l := by
  cases l
  · exact h.sda
  · exact h.scl

theorem Alike.env (h : Alike b c) (l : Line) : c.env l = b.env l := by
  cases l
  · exact h.envSda
  · exact h.envScl

/-! The line primitives. -/

theorem Alike.driveLow (h : Alike b c) (l : Line) : Alike (driveLow p l b) (driveLow p l c) := by
  have hlatch : latchOnConfig p l c = latchOnConfig p l b := by simp [latchOnConfig, h.draws]
  have hdraws : drawsOnConfig p.outLatch c = drawsOnConfig p.outLatch b := by simp [drawsOnConfig, h.draws]
  unfold Machine.driveLow assertLow configureOutput
  rw [hlatch, hdraws]
  exact ((((h.setDraws _).setPin _ _).emit _).setPin _ _).emit _

theorem Alike.configureInput (h : Alike b c) (l : Line) : Alike (configureInput l b) (configureInput l c) := by
  unfold Machine.configureInput
  rw [h.pin]
  exact h.setPin _ _

theorem Alike.release (h : Alike b c) (l : Line) : Alike (release l b) (release l c) :=
  (h.configureInput l).emit _

theorem Alike.sample (h : Alike b c) (l : Line) : AlikeResult (sample p l b) (sample p l c) := by
  refine ⟨by simp [h.env], ?_⟩
  simp only [Machine.sample, sampledLevel_eq, h.env]
  exact ((h.configureInput l).setEnv _ _).emit _

/-! The protocol primitives. -/

/-- The two runs see the same samples, so they leave the loop at the same poll. -/
theorem Alike.pollLoop (h : Alike b c) (k : Nat) : Alike (pollLoop p k b) (pollLoop p k c) := by
  induction k generalizing b c with
  | zero => exact h.timedOut
  | succ k ih =>
    obtain ⟨hlevel, hbus⟩ := h.sample (p := p) .scl
    unfold Machine.pollLoop
    rw [hlevel]
    split
    · exact hbus
    · exact ih (hbus.emit .poll)

theorem Alike.sclReleaseWait (h : Alike b c) : Alike (sclReleaseWait p b) (sclReleaseWait p c) :=
  (h.release .scl).pollLoop _

theorem Alike.releaseSda (h : Alike b c) : Alike (releaseSda b) (releaseSda c) :=
  (h.release .sda).emit .half

theorem Alike.pullLow (h : Alike b c) (l : Line) : Alike (pullLow p l b) (pullLow p l c) :=
  (h.driveLow l).emit .half

theorem Alike.clockHigh (h : Alike b c) : Alike (clockHigh p b) (clockHigh p c) :=
  h.sclReleaseWait.emit .half

theorem Alike.startCondition (h : Alike b c) : Alike (startCondition p b) (startCondition p c) :=
  ((h.setPhase _ _).releaseSda.clockHigh.pullLow _).pullLow _

theorem Alike.stopCondition (h : Alike b c) : Alike (stopCondition p b) (stopCondition p c) :=
  ((h.setPhase _ _).pullLow _).clockHigh.releaseSda.setPhase _ _

theorem Alike.setData (h : Alike b c) (v : Level) : Alike (setData p v b) (setData p v c) := by
  cases v
  · exact h.pullLow _
  · exact h.releaseSda

theorem Alike.writeBit (h : Alike b c) (v : Level) : Alike (writeBit p v b) (writeBit p v c) :=
  (h.setData v).clockHigh.pullLow _

theorem Alike.readBit (h : Alike b c) : AlikeResult (readBit p b) (readBit p c) := by
  obtain ⟨hlevel, hbus⟩ := h.releaseSda.clockHigh.sample (p := p) .sda
  exact ⟨hlevel, hbus.pullLow _⟩

theorem Alike.writeBits (h : Alike b c) (v : Byte) : Alike (writeBits p v b) (writeBits p v c) :=
  List.foldl_rel h fun _ _ _ _ hbc => hbc.writeBit _

theorem Alike.readBits (h : Alike b c) : AlikeResult (readBits p b) (readBits p c) := by
  refine List.foldl_rel (r := AlikeResult) ⟨rfl, h⟩ ?_
  rintro _ _ ⟨u, b⟩ ⟨w, c⟩ ⟨rfl, hbc⟩
  obtain ⟨hlevel, hbus⟩ := hbc.readBit (p := p)
  exact ⟨congrArg (shiftIn w) hlevel, hbus⟩

theorem Alike.writeByte (h : Alike b c) (role : ByteRole) (v : Byte) :
    AlikeResult (writeByte p role v b) (writeByte p role v c) := by
  obtain ⟨hlevel, hbus⟩ := (((h.setPhase _ _).writeBits v).setPhase _ _).readBit (p := p)
  exact ⟨congrArg ackedBy hlevel, hbus⟩

theorem Alike.readByte (h : Alike b c) (ack : Bool) : AlikeResult (readByte p ack b) (readByte p ack c) := by
  obtain ⟨hbyte, hbus⟩ := (h.setPhase .dataByte .dataByte).readBits (p := p)
  exact ⟨hbyte, (hbus.setPhase _ _).writeBit _⟩

/-! The transactions. -/

theorem Alike.sendBytes (h : Alike b c) (data : List Byte) :
    AlikeResult (sendBytes p data b) (sendBytes p data c) := by
  induction data generalizing b c with
  | nil => exact ⟨rfl, h⟩
  | cons v rest ih =>
    obtain ⟨hack, hbus⟩ := h.writeByte (p := p) .data v
    rw [sendBytes_cons, sendBytes_cons, hack]
    split
    · exact ih hbus
    · exact ⟨rfl, hbus⟩

theorem Alike.addressSent (h : Alike b c) (a : Addr) (d : Direction) :
    AlikeResult (addressSent p a d b) (addressSent p a d c) :=
  h.startCondition.writeByte _ _

theorem Alike.writeTransaction (h : Alike b c) (a : Addr) (data : List Byte) :
    AlikeResult (writeTransaction p a data b) (writeTransaction p a data c) := by
  obtain ⟨hack, hbus⟩ := h.addressSent (p := p) a .write
  obtain ⟨hstatus, hsent⟩ := hbus.sendBytes (p := p) data
  rw [writeTransaction_eq, writeTransaction_eq, hack]
  split
  · exact ⟨hstatus, hsent.stopCondition⟩
  · exact ⟨rfl, hbus.stopCondition⟩

theorem Alike.receivedUpto (h : Alike b c) (n : Nat) (rx : Vector Byte 32) (k : Nat) :
    AlikeResult (receivedUpto p n rx b k) (receivedUpto p n rx c k) := by
  induction k with
  | zero => exact ⟨rfl, h⟩
  | succ k ih =>
    obtain ⟨hcells, hbus⟩ := ih
    obtain ⟨hbyte, hnext⟩ := hbus.readByte (p := p) (decide (k < n - 1))
    rw [receivedUpto_succ, receivedUpto_succ, hcells, hbyte]
    exact ⟨rfl, hnext⟩

theorem Alike.readTransaction (h : Alike b c) (a : Addr) (n : Nat) (rx : Vector Byte 32) :
    (readTransaction p a n rx c).addressAcked = (readTransaction p a n rx b).addressAcked ∧
      (readTransaction p a n rx c).cells = (readTransaction p a n rx b).cells ∧
      Alike (readTransaction p a n rx b).bus (readTransaction p a n rx c).bus := by
  obtain ⟨hack, hbus⟩ := h.addressSent (p := p) a .read
  obtain ⟨hcells, hreceived⟩ := hbus.receivedUpto (p := p) n rx n
  rw [readTransaction_eq, readTransaction_eq, hack]
  split
  · exact ⟨rfl, hcells, hreceived.stopCondition⟩
  · exact ⟨rfl, rfl, hbus.stopCondition⟩

end

/-- Two states that agree in everything but `PHASE` and the `PHASE` column of the trace. -/
def AlikeState (s t : State) : Prop := s = { t with bus := s.bus } ∧ Alike s.bus t.bus

theorem AlikeState.finish {s t : State} (h : s = { t with bus := s.bus }) {x y : Bus} (hxy : Alike x y)
    {q r : Response} (hr : r = q) : AlikeState (s.finish x q) (t.finish y r) := by
  subst hr
  rw [h]
  exact ⟨rfl, hxy⟩

/-- Every operation takes states alike to states alike (spec/10_state.md R16). -/
theorem exec_alike (i : Instr) (s : State) {c : Bus} (h : Alike s.bus c) :
    ∃ t t', exec i s = .next t ∧ exec i { s with bus := c } = .next t' ∧ AlikeState t t' := by
  cases i with
  | beginBus => exact ⟨_, _, rfl, rfl, .finish rfl (((h.release _).release _).emit _) rfl⟩
  | beginTx a => exact ⟨_, _, rfl, rfl, rfl, h⟩
  | write b =>
    refine ⟨_, _, rfl, rfl, ?_, by simpa using h⟩
    unfold State.pushTx
    split <;> rfl
  | endTx =>
    obtain ⟨hstatus, hbus⟩ := h.writeTransaction (p := s.params) s.addr s.queued
    exact ⟨_, _, rfl, rfl, .finish rfl hbus (congrArg Response.status hstatus)⟩
  | requestFrom a count =>
    obtain ⟨hack, hcells, hbus⟩ := h.readTransaction (p := s.params) a (clampCount count).val s.rxBuf
    refine ⟨_, _, rfl, rfl, ?_, hbus⟩
    simp only [hack, hcells]
    rfl
  | read =>
    refine ⟨_, _, rfl, rfl, ?_, by simpa using h⟩
    unfold State.advanceRx
    split <;> rfl
  | available => exact ⟨_, _, rfl, rfl, rfl, h⟩
  | driveLow l => exact ⟨_, _, rfl, rfl, .finish rfl (h.driveLow l) rfl⟩
  | release l => exact ⟨_, _, rfl, rfl, .finish rfl (h.release l) rfl⟩
  | sample l =>
    obtain ⟨hlevel, hbus⟩ := h.sample (p := s.params) l
    exact ⟨_, _, rfl, rfl, .finish rfl hbus (congrArg Response.level hlevel)⟩
  | halfDelay => exact ⟨_, _, rfl, rfl, .finish rfl (h.emit _) rfl⟩
  | pollDelay => exact ⟨_, _, rfl, rfl, .finish rfl (h.emit _) rfl⟩
  | stabilizeWait => exact ⟨_, _, rfl, rfl, .finish rfl (h.emit _) rfl⟩
  | sclReleaseWait => exact ⟨_, _, rfl, rfl, .finish rfl h.sclReleaseWait rfl⟩
  | start => exact ⟨_, _, rfl, rfl, .finish rfl h.startCondition rfl⟩
  | stop => exact ⟨_, _, rfl, rfl, .finish rfl h.stopCondition rfl⟩
  | writeBit v => exact ⟨_, _, rfl, rfl, .finish rfl (h.writeBit v) rfl⟩
  | readBit =>
    obtain ⟨hlevel, hbus⟩ := h.readBit (p := s.params)
    exact ⟨_, _, rfl, rfl, .finish rfl hbus (congrArg Response.bit hlevel)⟩
  | writeByte v =>
    have hrole : injectedRole s.params c = injectedRole s.params s.bus := by simp [injectedRole, h.draws]
    obtain ⟨hack, hbus⟩ := (h.setDraws (s.bus.draws + 1)).writeByte (p := s.params)
      (injectedRole s.params s.bus) v
    refine ⟨_, _, rfl, rfl, ?_⟩
    simp only [hrole, h.draws]
    exact .finish rfl hbus (congrArg Response.acked hack)
  | readByte ack =>
    obtain ⟨hbyte, hbus⟩ := h.readByte (p := s.params) ack
    exact ⟨_, _, rfl, rfl, .finish rfl hbus (congrArg Response.byte hbyte)⟩

/-- Settles O37: another phase at the start is a line side alike, and every operation keeps it alike. -/
theorem phaseIsReadByNothing : Obligations.PhaseIsReadByNothing := by
  intro i s q
  obtain ⟨t, t', ht, ht', hrest, hbus⟩ := exec_alike i s (alike_setPhase s.bus q)
  have hresponse : t'.response = t.response := by rw [hrest]
  exact ⟨t, t', ht, ht', hresponse, hbus.events, hbus.sda, hbus.scl, hbus.envSda, hbus.envScl, hrest⟩

end Sys2Proof.StateProofs

/-! ### The sequence of phases along a transaction -/

namespace Sys2Proof.StateProofs

open Sys2Proof.Machine Sys2Proof.Laws

/-- The second list is made of a block of each phase of the first, in order, none of them empty. -/
inductive Blocks : List Phase → List Phase → Prop where
  | nil : Blocks [] []
  | cons {q : Phase} {m : Nat} {qs xs : List Phase} (hm : 1 ≤ m) (h : Blocks qs xs) :
      Blocks (q :: qs) (List.replicate m q ++ xs)

theorem Blocks.append {qs rs xs ys : List Phase} (h : Blocks qs xs) (g : Blocks rs ys) :
    Blocks (qs ++ rs) (xs ++ ys) := by
  induction h with
  | nil => exact g
  | cons hm _ ih =>
    rw [List.cons_append, List.append_assoc]
    exact .cons hm ih

/-- When no phase of the sequence repeats the one before it, the runs are that sequence. -/
theorem Blocks.phaseRuns_eq {qs xs : List Phase} (h : Blocks qs xs) (hqs : qs.IsChain (· ≠ ·)) :
    phaseRuns xs = qs := by
  induction h with
  | nil => rfl
  | @cons q m qs xs hm h ih =>
    cases h with
    | nil => rw [List.append_nil, phaseRuns_replicate q m hm]
    | @cons r n rs ys hn h =>
      obtain ⟨hqr, hrs⟩ := List.isChain_cons_cons.1 hqs
      obtain ⟨n, rfl⟩ := Nat.exists_eq_add_of_le' hn
      have hruns := ih hrs
      rw [List.replicate_succ, List.cons_append] at hruns ⊢
      rw [phaseRuns_replicate_append q m hm r hqr, hruns]

/-- From `b` to `c` the pin events happened in the phases `qs`, one after another. -/
def Visits (qs : List Phase) (b c : Bus) : Prop :=
  ∃ es, c.trace = b.trace ++ es ∧ Blocks qs (es.map Entry.phase)

theorem Visits.refl (b : Bus) : Visits [] b b := ⟨[], by simp, .nil⟩

theorem Visits.trans {qs rs : List Phase} {a b c : Bus} (h : Visits qs a b) (g : Visits rs b c) :
    Visits (qs ++ rs) a c := by
  obtain ⟨es, hes, hqs⟩ := h
  obtain ⟨fs, hfs, hrs⟩ := g
  exact ⟨es ++ fs, by rw [hfs, hes, List.append_assoc], by simpa using hqs.append hrs⟩

/-- A phase is set and at least one event happens in it. -/
theorem visits_setPhase {q : Phase} {n : Nat} {b c : Bus} (hn : 1 ≤ n)
    (h : InPhase q n (b.setPhase q) c) : Visits [q] b c := by
  obtain ⟨-, m, hm, es, hes, hphases⟩ := h rfl
  refine ⟨es, hes, ?_⟩
  rw [hphases, ← List.append_nil (List.replicate m q)]
  exact .cons (hn.trans hm) .nil

theorem Visits.newPhases_runs {qs : List Phase} {s t : State} (h : Visits qs s.bus t.bus)
    (hqs : qs.IsChain (· ≠ ·)) : phaseRuns (newPhases s t) = qs := by
  obtain ⟨es, hes, hblocks⟩ := h
  rw [newPhases, hes, List.drop_left]
  exact hblocks.phaseRuns_eq hqs

/-! The protocol primitives (spec/10_state.md R17). -/

theorem visits_startCondition (p : Params) (b : Bus) : Visits [.start] b (startCondition p b) := by
  have hcell := cell_inPhase p .start
  exact visits_setPhase (n := 1) (Nat.le_refl _)
    ((((hcell.floatSda _).trans (hcell.clockHigh _)).trans (hcell.pullLow _ _)).trans (hcell.pullLow _ _))

theorem visits_stopCondition (p : Params) (b : Bus) : Visits [.stop] b (stopCondition p b) := by
  have hcell := cell_inPhase p .stop
  have hevents : Visits [.stop] b (releaseSda (clockHigh p (pullLow p .sda (b.setPhase .stop)))) :=
    visits_setPhase (n := 1) (Nat.le_refl _)
      (((hcell.pullLow .sda _).trans (hcell.clockHigh _)).trans (hcell.floatSda _))
  exact hevents

theorem visits_writeByte (p : Params) (role : ByteRole) (v : Byte) (b : Bus) :
    Visits [rolePhase role, .ackOrNack] b (writeByte p role v b).2 :=
  (visits_setPhase (by decide) ((cell_inPhase p (rolePhase role)).writeBits v _)).trans
    (visits_setPhase (by decide) ((cell_inPhase p .ackOrNack).readBit _))

theorem visits_readByte (p : Params) (ack : Bool) (b : Bus) :
    Visits [.dataByte, .ackOrNack] b (readByte p ack b).2 :=
  (visits_setPhase (by decide) ((cell_inPhase p .dataByte).readBits _)).trans
    (visits_setPhase (by decide) ((cell_inPhase p .ackOrNack).writeBit _ _))

theorem visits_addressSent (p : Params) (a : Addr) (d : Direction) (b : Bus) :
    Visits [.start, .addressByte, .ackOrNack] b (addressSent p a d b).2 :=
  (visits_startCondition p b).trans (visits_writeByte p .address (addrByte a d) _)

/-! The data bytes. -/

/-- The phases of `k` data bytes. -/
def dataPhases (k : Nat) : List Phase := (List.replicate k [.dataByte, .ackOrNack]).flatten

theorem dataPhases_succ (k : Nat) : dataPhases (k + 1) = [.dataByte, .ackOrNack] ++ dataPhases k := rfl

theorem dataPhases_succ' (k : Nat) : dataPhases (k + 1) = dataPhases k ++ [.dataByte, .ackOrNack] := by
  simp [dataPhases, List.replicate_succ']

theorem transactionPhases_eq (k : Nat) :
    transactionPhases k = [.start, .addressByte, .ackOrNack] ++ dataPhases k ++ [.stop] := rfl

/-- No phase of a transaction is followed by itself. -/
theorem transactionPhases_isChain (k : Nat) : (transactionPhases k).IsChain (· ≠ ·) := by
  have hdata : (Phase.ackOrNack :: (dataPhases k ++ [.stop])).IsChain (· ≠ ·) := by
    induction k with
    | zero => decide
    | succ k ih =>
      rw [dataPhases_succ]
      simpa using ih
  rw [transactionPhases_eq]
  simpa using hdata

/-- How many data bytes were sent, by the status. -/
theorem visits_sendBytes (p : Params) (data : List Byte) (b : Bus) :
    ∃ k, Visits (dataPhases k) b (sendBytes p data b).2 ∧
      ((sendBytes p data b).1 = .ok ∧ k = data.length ∨
        (sendBytes p data b).1 = .dataNack ∧ 1 ≤ k ∧ k ≤ data.length) := by
  induction data generalizing b with
  | nil => exact ⟨0, Visits.refl b, .inl ⟨rfl, rfl⟩⟩
  | cons v rest ih =>
    have hbyte := visits_writeByte p .data v b
    rw [sendBytes_cons]
    split
    · obtain ⟨k, hvisits, hk⟩ := ih (writeByte p .data v b).2
      refine ⟨k + 1, hbyte.trans hvisits, ?_⟩
      rcases hk with ⟨hok, hk⟩ | ⟨hnack, -, hk⟩
      · exact .inl ⟨hok, by simp [hk]⟩
      · exact .inr ⟨hnack, by omega, by simpa using hk⟩
    · exact ⟨1, hbyte, .inr ⟨rfl, Nat.le_refl _, by simp⟩⟩

theorem visits_receivedUpto (p : Params) (n : Nat) (rx : Vector Byte 32) (b : Bus) (k : Nat) :
    Visits (dataPhases k) b (receivedUpto p n rx b k).2 := by
  induction k with
  | zero => exact Visits.refl b
  | succ k ih =>
    rw [receivedUpto_succ, dataPhases_succ']
    exact ih.trans (visits_readByte p _ _)

/-! The transactions. -/

/-- The phases of `END_TX`, with the number of data bytes by the status (spec/42_transaction_api.md R103). -/
theorem visits_writeTransaction (p : Params) (a : Addr) (data : List Byte) (b : Bus) :
    ∃ k, Visits (transactionPhases k) b (writeTransaction p a data b).2 ∧
      ((writeTransaction p a data b).1 = .ok → k = data.length) ∧
      ((writeTransaction p a data b).1 = .addrNack → k = 0) ∧
      ((writeTransaction p a data b).1 = .dataNack → 1 ≤ k ∧ k ≤ data.length) := by
  have haddr := visits_addressSent p a .write b
  rw [writeTransaction_eq]
  split
  · obtain ⟨k, hdata, hk⟩ := visits_sendBytes p data (addressSent p a .write b).2
    refine ⟨k, (haddr.trans hdata).trans (visits_stopCondition p _), ?_⟩
    rcases hk with ⟨hok, hk⟩ | ⟨hnack, hk⟩
    · simp [hok, hk]
    · simp [hnack, hk]
  · exact ⟨0, haddr.trans (visits_stopCondition p _), by simp⟩

/-- The phases of `REQUEST_FROM` (R104): the bytes asked for when the address is acknowledged, else none. -/
theorem visits_readTransaction (p : Params) (a : Addr) (n : Nat) (rx : Vector Byte 32) (b : Bus) :
    Visits (transactionPhases (if (readTransaction p a n rx b).addressAcked then n else 0)) b
      (readTransaction p a n rx b).bus := by
  have haddr := visits_addressSent p a .read b
  rw [readTransaction_eq]
  split
  · exact (haddr.trans (visits_receivedUpto p n rx _ n)).trans (visits_stopCondition p _)
  · exact haddr.trans (visits_stopCondition p _)

/-- Settles O38: the events come in non-empty blocks of one phase each, and no block repeats the phase before it. -/
theorem transactionPhaseSequence : Obligations.TransactionPhaseSequence := by
  rintro i s (rfl | ⟨a, count, rfl⟩)
  · obtain ⟨k, hvisits, hk⟩ := visits_writeTransaction s.params s.addr s.queued s.bus
    obtain ⟨hphase, -⟩ := idle_writeTransaction s.params s.addr s.queued s.bus
    rw [queued_length] at hk
    refine ⟨_, k, rfl, hphase, Visits.newPhases_runs hvisits (transactionPhases_isChain k), ?_, nofun⟩
    rintro st hst
    obtain rfl := Response.status.inj (Option.some.inj hst)
    exact hk
  · have hvisits := visits_readTransaction s.params a (clampCount count).val s.rxBuf s.bus
    obtain ⟨hphase, -⟩ := idle_readTransaction s.params a (clampCount count).val s.rxBuf s.bus
    refine ⟨_, _, rfl, hphase, Visits.newPhases_runs hvisits (transactionPhases_isChain _), nofun, ?_⟩
    rintro n hn
    obtain rfl := Response.received.inj (Option.some.inj hn)
    split <;> rfl

end Sys2Proof.StateProofs

/-! PROOFS. The memory and the wire: the bytes a read transaction stores, and the level of a line
(spec/20_memory.md). -/

namespace Sys2Proof.MemoryProofs

open Sys2Proof.Machine Sys2Proof.Laws

/-! ### The receive buffer -/

@[simp] theorem clampCount_val (count : Byte) : (clampCount count).val = min count.toNat 32 := rfl

/-- `Stop` takes no answer on the data line, so the bytes of the loop of `REQUEST_FROM` are those of the
transaction (spec/42_transaction_api.md R104). -/
theorem readTransaction_answers (p : Params) (a : Addr) (rx : Vector Byte 32) (b : Bus) (bytes : List Byte)
    (rest : List Level) (n : Nat) (hl : bytes.length ≤ 32)
    (h : b.envSda = ⟨false :: (bytes.flatMap msbFirst ++ rest), n⟩) :
    (readTransaction p a bytes.length rx b).addressAcked = true ∧
      (readTransaction p a bytes.length rx b).cells.toList.take bytes.length = bytes ∧
      (readTransaction p a bytes.length rx b).bus.envSda = ⟨rest, n⟩ := by
  have hacked : (addressSent p a .read b).1 = true := by simp [h, next_cons]
  have hanswers : (addressSent p a .read b).2.envSda = ⟨bytes.flatMap msbFirst ++ rest, n⟩ := by
    simp [h, next_cons]
  obtain ⟨hcells, henv⟩ := receivedUpto_answers p bytes.length rx _ bytes rest n hl hanswers
  rw [readTransaction_eq, if_pos hacked, receiveBytes_eq]
  exact ⟨rfl, hcells, by rw [stopCondition_envSda, henv]⟩

/-- Settles O32: the address takes the first answer, the received bytes take the bits that follow, and the
cursor starts at 0. -/
theorem requestFromReceivesBytes : Obligations.RequestFromReceivesBytes := by
  intro a count s bytes rest n hlength hanswers
  have hle : bytes.length ≤ 32 := hlength ▸ Nat.min_le_right _ _
  obtain ⟨hacked, hcells, henv⟩ := readTransaction_answers s.params a s.rxBuf s.bus bytes rest n hle hanswers
  rw [hlength] at hacked hcells henv
  refine ⟨_, rfl, ?_, henv⟩
  simpa [State.unread, hacked] using hcells

/-! ### The wire -/

@[simp] theorem wireLevel_outLatch_released (v free : Level) :
    wireLevel ⟨.outLatch, v⟩ false free = v := rfl

@[simp] theorem wireLevel_outLatch_contended (free : Level) :
    wireLevel ⟨.outLatch, true⟩ true free = free := rfl

/-- The case R37 does not list (log 8). -/
@[simp] theorem wireLevel_outLatch_bothLow (free : Level) :
    wireLevel ⟨.outLatch, false⟩ true free = false := rfl

@[simp] theorem wireLevel_unconfigured (v : Level) (envLow : Bool) (free : Level) :
    wireLevel ⟨.unconfigured, v⟩ envLow free = free := rfl

/-- Settles O47: the level is `wireLevel` of the pin, and each clause is its line for one mode. -/
theorem wireLevelTable : Obligations.WireLevelTable := by
  intro b p l moment envLow
  rw [Bus.level]
  obtain ⟨mode, latch⟩ := b.pin l
  refine ⟨?outLow, ?pulledLow, ?pulledUp, ?latchAlone, ?latchHighAgainstLow, ?latchLowAgainstLow,
    ?unconfigured⟩
  case outLow => rintro rfl; exact wireLevel_outLow _ _ _
  case pulledLow => rintro rfl rfl; exact wireLevel_inPullup _ _ _
  case pulledUp => rintro rfl rfl; exact wireLevel_inPullup _ _ _
  case latchAlone => rintro rfl rfl; exact wireLevel_outLatch_released _ _
  case latchHighAgainstLow => rintro rfl rfl rfl; exact wireLevel_outLatch_contended _
  case latchLowAgainstLow => rintro rfl rfl rfl; exact wireLevel_outLatch_bothLow _
  case unconfigured => rintro rfl; exact wireLevel_unconfigured _ _ _

end Sys2Proof.MemoryProofs

/-! PROOFS. The encoding: decoding and encoding agree, a word decodes as the rows of the opcode table say, and
what a step does with a legal and an illegal word (spec/30_encoding.md R57 to R63). -/

namespace Sys2Proof.EncodingProofs

open Sys2Proof.Machine Sys2Proof.Laws

/-! ### Words written out, operands and responses -/

/-- Settles O1: the decoder evaluates to each answer. -/
theorem specWordsDecode : Obligations.SpecWordsDecode :=
  ⟨rfl, rfl, rfl, rfl, rfl, rfl, rfl, rfl, rfl, rfl, rfl, rfl⟩

/-- The address byte as R52 writes it, by shift and or. -/
theorem addrByte_setWidth (x : Byte) (d : Direction) :
    addrByte (x.setWidth 7) d = ((x &&& 0x7F) <<< 1) ||| (rwBit d).setWidth 8 := by
  rw [addrByte, BitVec.append_def, BitVec.shiftLeftZeroExtend_eq, BitVec.setWidth'_eq, addr_of_field]

/-- Settles O49: the formula of R52 with the bit of each direction. -/
theorem addressByteLayout : Obligations.AddressByteLayout :=
  fun x => ⟨addrByte_setWidth x .write, addrByte_setWidth x .read⟩

/-- A count fits into the response byte (R62). -/
theorem toNat_ofNat_count (n : Fin 33) : (BitVec.ofNat 8 n.val).toNat = n.val := by
  rw [BitVec.toNat_ofNat]
  omega

/-- Settles O48: each clause is the line of `Response.rsp` for one answer; the counts fit into a byte. -/
theorem responseWords : Obligations.ResponseWords :=
  ⟨rfl, fun _ => rfl, fun _ => rfl, rfl, rfl, rfl, fun n => ⟨_, rfl, toNat_ofNat_count n⟩,
    fun n => ⟨_, rfl, toNat_ofNat_count n⟩, fun _ => rfl, fun _ => rfl, fun _ => rfl, rfl⟩

/-! ### Decoding what was encoded -/

theorem decode_eq_decodeOp {w : CmdWord} (h : rsvOf w = 0) :
    decode w = decodeOp (opOf w) (fieldA w) (fieldB w) := if_pos h

@[simp] theorem bitOperand_byteOfBit (x : Bool) (f : Bool → Instr) :
    bitOperand 0 (byteOfBit x) f = .ok (f x) := by
  simp [bitOperand, BitVec.getLsbD_eq_getElem]

/-- A one-bit operand that names a line (R59). -/
theorem bitOperand_bitOfLine (l : Line) (f : Line → Instr) :
    bitOperand 0 (byteOfBit (bitOfLine l)) (fun x => f (lineOfBit x)) = .ok (f l) := by
  rw [bitOperand_byteOfBit, lineOfBit_bitOfLine]

/-- The operand rules of R59 take the operands an operation is encoded with. -/
theorem decodeOp_operands (i : Instr) : decodeOp i.opcode i.operandA i.operandB = .ok i := by
  cases i with
  | beginTx a => exact congrArg (Except.ok <| Instr.beginTx ·) (addr_through_field a)
  | requestFrom a count => exact congrArg (Except.ok <| Instr.requestFrom · count) (addr_through_field a)
  | driveLow l => exact bitOperand_bitOfLine l .driveLow
  | release l => exact bitOperand_bitOfLine l .release
  | sample l => exact bitOperand_bitOfLine l .sample
  | writeBit b => exact bitOperand_byteOfBit b .writeBit
  | readByte ack => exact bitOperand_byteOfBit ack .readByte
  | _ => rfl

/-- Settles O2: the fields of the encoding are the operation's code and operands, and these decode to it. -/
theorem decodeOfEncode : Obligations.DecodeOfEncode := by
  intro i
  obtain ⟨hop, hrsv, ha, hb⟩ := fieldsEncoded i
  rw [decode_eq_decodeOp hrsv, hop, ha, hb]
  exact decodeOp_operands i

/-! ### Encoding what was decoded -/

/-- A decoded word is the encoding but for the bits a mask takes out of field `A`. -/
theorem encode_eq_and {w m : CmdWord} {i : Instr} (h : decode w = .ok i) (hop : opOf m = 0xFF)
    (hrsv : rsvOf m = 0xFF) (ha : fieldA m = usedA i) (hb : fieldB m = 0xFF) : encode i = w &&& m := by
  obtain ⟨gop, grsv, ga, gb⟩ := decode_fields h
  obtain ⟨fop, frsv, fa, fb⟩ := fieldsEncoded i
  refine ((masked_iff_fields w m (encode i)).2 ⟨?_, ?_, ?_, ?_⟩).symm
  · rw [hop, and_ff, gop, fop]
  · rw [hrsv, and_ff, grsv, frsv]
  · rw [ha, ga, fa]
  · rw [hb, and_ff, gb, fb]

/-- Settles O3: only an address operand has a bit the decoder ignores. -/
theorem encodeOfDecode : Obligations.EncodeOfDecode := by
  intro w i h
  cases i with
  | beginTx a => exact encode_eq_and (m := 0xFFFF7FFF) h rfl rfl rfl rfl
  | requestFrom a count => exact encode_eq_and (m := 0xFFFF7FFF) h rfl rfl rfl rfl
  | _ => exact encode_eq_and (m := 0xFFFFFFFF) h rfl rfl rfl rfl

/-! ### The rows of the opcode table -/

theorem opOf_or (w m : CmdWord) : opOf (w ||| m) = opOf w ||| opOf m := BitVec.extractLsb'_or
theorem rsvOf_or (w m : CmdWord) : rsvOf (w ||| m) = rsvOf w ||| rsvOf m := BitVec.extractLsb'_or
theorem fieldA_or (w m : CmdWord) : fieldA (w ||| m) = fieldA w ||| fieldA m := BitVec.extractLsb'_or
theorem fieldB_or (w m : CmdWord) : fieldB (w ||| m) = fieldB w ||| fieldB m := BitVec.extractLsb'_or

/-- The bits of field `A` that a row requires to be 0 (R59, R61). -/
def zeroA : Instr → Byte
  | .beginTx _ => 0
  | .requestFrom _ _ => 0
  | _ => 0xFF

/-- The bits of field `B` that a row requires to be 0 (R59, R61). -/
def zeroB : Instr → Byte
  | .write _ => 0
  | .requestFrom _ _ => 0
  | .writeByte _ => 0
  | .driveLow _ => 0xFE
  | .release _ => 0xFE
  | .sample _ => 0xFE
  | .writeBit _ => 0xFE
  | .readByte _ => 0xFE
  | _ => 0xFF

/-- The row of an operation: its code in field `OP`, 0 in every other bit the row fixes (R61). -/
def rowOf (i : Instr) : OpcodeRow where
  mnemonic := i.mnemonic
  value := packWord i.opcode 0 0
  mask := packWord 0xFF (zeroA i) (zeroB i) ||| 0x00FF0000

/-- One operation for each row, in the order of the table. -/
def operations : List Instr :=
  [.beginBus, .beginTx 0, .write 0, .endTx, .requestFrom 0 0, .read, .available, .driveLow .sda,
    .release .sda, .sample .sda, .halfDelay, .pollDelay, .stabilizeWait, .sclReleaseWait, .start, .stop,
    .writeBit false, .readBit, .writeByte 0, .readByte false]

theorem opcodeRows_eq : opcodeRows = operations.map rowOf := by decide

/-- The row does not look at the operands. -/
theorem exists_operation (i : Instr) : ∃ j ∈ operations, rowOf j = rowOf i := by
  cases i with
  | beginTx _ => exact ⟨.beginTx 0, by decide, rfl⟩
  | write _ => exact ⟨.write 0, by decide, rfl⟩
  | requestFrom _ _ => exact ⟨.requestFrom 0 0, by decide, rfl⟩
  | driveLow _ => exact ⟨.driveLow .sda, by decide, rfl⟩
  | release _ => exact ⟨.release .sda, by decide, rfl⟩
  | sample _ => exact ⟨.sample .sda, by decide, rfl⟩
  | writeBit _ => exact ⟨.writeBit false, by decide, rfl⟩
  | writeByte _ => exact ⟨.writeByte 0, by decide, rfl⟩
  | readByte _ => exact ⟨.readByte false, by decide, rfl⟩
  | _ => exact ⟨_, by decide, rfl⟩

/-- The table has a row for every operation and no other row (R60). -/
theorem mem_opcodeRows_iff (r : OpcodeRow) : r ∈ opcodeRows ↔ ∃ i, rowOf i = r := by
  rw [opcodeRows_eq, List.mem_map]
  constructor
  · rintro ⟨i, -, hi⟩
    exact ⟨i, hi⟩
  · rintro ⟨i, rfl⟩
    exact exists_operation i

/-- A word selects the row of an operation when it has the operation's code and 0 in every other bit the row
fixes (R61). -/
theorem rowOf_selectedBy_iff (i : Instr) (w : CmdWord) : (rowOf i).selectedBy w = true ↔
    opOf w = i.opcode ∧ rsvOf w = 0 ∧ fieldA w &&& zeroA i = 0 ∧ fieldB w &&& zeroB i = 0 := by
  have hop : opOf (rowOf i).mask = 0xFF := by rw [rowOf, opOf_or, opOf_packWord]; rfl
  have hrsv : rsvOf (rowOf i).mask = 0xFF := by rw [rowOf, rsvOf_or, rsvOf_packWord]; rfl
  have ha : fieldA (rowOf i).mask = zeroA i := by rw [rowOf, fieldA_or, fieldA_packWord]; exact BitVec.or_zero
  have hb : fieldB (rowOf i).mask = zeroB i := by rw [rowOf, fieldB_or, fieldB_packWord]; exact BitVec.or_zero
  rw [OpcodeRow.selectedBy, decide_eq_true_iff, masked_iff_fields, hop, hrsv, ha, hb, and_ff, and_ff]
  simp [rowOf]

/-! ### Decoding by match and mask -/

/-- An operand has 0 wherever its row asks for it. -/
theorem operandB_and_zeroB (i : Instr) : i.operandB &&& zeroB i = 0 := by
  have hbit : ∀ x, byteOfBit x &&& 0xFE = 0 := by decide
  cases i with
  | write _ => exact BitVec.and_zero
  | requestFrom _ _ => exact BitVec.and_zero
  | writeByte _ => exact BitVec.and_zero
  | driveLow _ => exact hbit _
  | release _ => exact hbit _
  | sample _ => exact hbit _
  | writeBit _ => exact hbit _
  | readByte _ => exact hbit _
  | _ => exact BitVec.zero_and

/-- A decoded word selects the row of its operation: the decoder asks for the code, and for 0 wherever the row
does. -/
theorem rowOf_selectedBy_of_decode {w : CmdWord} {i : Instr} (h : decode w = .ok i) :
    (rowOf i).selectedBy w = true := by
  obtain ⟨hop, hrsv, ha, hb⟩ := decode_fields h
  refine (rowOf_selectedBy_iff i w).2 ⟨hop, hrsv, ?_, by rw [hb, operandB_and_zeroB]⟩
  cases i with
  | beginTx _ => exact BitVec.and_zero
  | requestFrom _ _ => exact BitVec.and_zero
  | _ => exact ha

theorem eq_zero_of_and_ff {x : Byte} (h : x &&& 0xFF = 0) : x = 0 := (and_ff x).symm.trans h

theorem noOperand_of_zeros {a b : Byte} (ha : a &&& 0xFF = 0) (hb : b &&& 0xFF = 0) (i : Instr) :
    noOperand a b i = .ok i :=
  if_pos ⟨eq_zero_of_and_ff ha, eq_zero_of_and_ff hb⟩

theorem byteOperand_of_zeros {a : Byte} (ha : a &&& 0xFF = 0) (b : Byte) (f : Byte → Instr) :
    byteOperand a b f = .ok (f b) :=
  if_pos (eq_zero_of_and_ff ha)

theorem bitOperand_of_zeros {a b : Byte} (ha : a &&& 0xFF = 0) (hb : b &&& 0xFE = 0) (f : Bool → Instr) :
    bitOperand a b f = .ok (f (b.getLsbD 0)) := by
  have hhigh : ∀ b : Byte, b &&& 0xFE = 0 → b.extractLsb' 1 7 = 0 := by decide
  exact if_pos ⟨eq_zero_of_and_ff ha, hhigh b hb⟩

/-- The operand rules take every operand with 0 wherever the row asks for it. -/
theorem decodeOp_of_zeros {a b : Byte} (i : Instr) (ha : a &&& zeroA i = 0) (hb : b &&& zeroB i = 0) :
    ∃ j, decodeOp i.opcode a b = .ok j ∧ rowOf j = rowOf i := by
  cases i with
  | beginTx _ => exact ⟨.beginTx (a.setWidth 7), if_pos (eq_zero_of_and_ff hb), rfl⟩
  | requestFrom _ _ => exact ⟨.requestFrom (a.setWidth 7) b, rfl, rfl⟩
  | write _ => exact ⟨_, byteOperand_of_zeros ha b .write, rfl⟩
  | writeByte _ => exact ⟨_, byteOperand_of_zeros ha b .writeByte, rfl⟩
  | driveLow _ => exact ⟨_, bitOperand_of_zeros ha hb (.driveLow <| lineOfBit ·), rfl⟩
  | release _ => exact ⟨_, bitOperand_of_zeros ha hb (.release <| lineOfBit ·), rfl⟩
  | sample _ => exact ⟨_, bitOperand_of_zeros ha hb (.sample <| lineOfBit ·), rfl⟩
  | writeBit _ => exact ⟨_, bitOperand_of_zeros ha hb .writeBit, rfl⟩
  | readByte _ => exact ⟨_, bitOperand_of_zeros ha hb .readByte, rfl⟩
  | _ => exact ⟨_, noOperand_of_zeros ha hb _, rfl⟩

/-- The decoder and the table agree: a word selects exactly the row of the operation it decodes to (R61). -/
theorem selectedBy_iff_decode {r : OpcodeRow} (hr : r ∈ opcodeRows) (w : CmdWord) :
    r.selectedBy w = true ↔ ∃ i, decode w = .ok i ∧ rowOf i = r := by
  constructor
  · intro h
    obtain ⟨i, rfl⟩ := (mem_opcodeRows_iff r).1 hr
    obtain ⟨hop, hrsv, ha, hb⟩ := (rowOf_selectedBy_iff i w).1 h
    rw [decode_eq_decodeOp hrsv, hop]
    exact decodeOp_of_zeros i ha hb
  · rintro ⟨i, h, rfl⟩
    exact rowOf_selectedBy_of_decode h

/-- Settles O4: no two rows overlap because a word decodes to one operation at most. -/
theorem decodeFollowsMatchAndMask : Obligations.DecodeFollowsMatchAndMask := by
  refine ⟨?decodedIsSelected, ?selectedIsDecoded, ?noOverlap⟩
  case decodedIsSelected =>
    intro w i h
    exact ⟨rowOf i, (mem_opcodeRows_iff _).2 ⟨i, rfl⟩, rowOf_selectedBy_of_decode h, rfl⟩
  case selectedIsDecoded =>
    intro w r hr h
    obtain ⟨i, hi, rfl⟩ := (selectedBy_iff_decode hr w).1 h
    exact ⟨i, hi, rfl⟩
  case noOverlap =>
    intro w r hr q hq hrw hqw
    obtain ⟨i, hi, rfl⟩ := (selectedBy_iff_decode hr w).1 hrw
    obtain ⟨j, hj, rfl⟩ := (selectedBy_iff_decode hq w).1 hqw
    obtain rfl := Except.ok.inj (hi.symm.trans hj)
    rfl

/-! ### What a step does with a word -/

/-- Settles O5: the word is waiting and legal at its port, so neither other case of a step applies. -/
theorem stepExecutesNextWord : Obligations.StepExecutesNextWord := by
  intro s r rest i hs hi hport
  rcases step_cases s with ⟨hnil, -⟩ | ⟨q, qs, hcons, hillegal, -⟩ | ⟨q, qs, j, hcons, hj, -, hstep⟩
  · simp [hs] at hnil
  · obtain ⟨rfl, rfl⟩ := List.cons.inj (hs.symm.trans hcons)
    exact absurd hport (by simp [hillegal i hi])
  · obtain ⟨rfl, rfl⟩ := List.cons.inj (hs.symm.trans hcons)
    obtain rfl := Except.ok.inj (hi.symm.trans hj)
    exact hstep

/-- The codes of class `API` are those below `0x10` (R60). -/
theorem isApi_eq (i : Instr) : i.isApi = decide (i.opcode < 0x10) := by cases i <;> rfl

theorem isApi_of_rowOf_mem_uopRows {i : Instr} (h : rowOf i ∈ uopRows) : i.isApi = false := by
  have hcodes : ∀ r ∈ uopRows, ¬ opOf r.value < 0x10 := by decide
  have hcode : ¬ i.opcode < 0x10 := by simpa [rowOf] using hcodes _ h
  simpa [isApi_eq] using hcode

/-- Settles O6: a step that executes takes a word that decodes, so it selects the row of its operation, and at
the host port that is no row of class `UOP`. -/
theorem illegalWordOnlyAnswered : Obligations.IllegalWordOnlyAnswered := by
  intro s r rest hs hbad
  rcases step_cases s with ⟨hnil, -⟩ | ⟨q, qs, hcons, -, hstep⟩ | ⟨q, qs, i, hcons, hi, hport, -⟩
  · simp [hs] at hnil
  · obtain ⟨rfl, rfl⟩ := List.cons.inj (hs.symm.trans hcons)
    exact hstep
  · obtain ⟨rfl, rfl⟩ := List.cons.inj (hs.symm.trans hcons)
    rcases hbad with hnone | ⟨hhost, row, hrow, hsel⟩
    · have hsel := rowOf_selectedBy_of_decode hi
      simp [hnone _ ((mem_opcodeRows_iff _).2 ⟨i, rfl⟩)] at hsel
    · have hmem : row ∈ opcodeRows := List.mem_append_right apiRows hrow
      obtain ⟨j, hj, rfl⟩ := (selectedBy_iff_decode hmem r.word).1 hsel
      obtain rfl := Except.ok.inj (hi.symm.trans hj)
      simp [Instr.wellFormedAt, hhost, isApi_of_rowOf_mem_uopRows hrow] at hport

end Sys2Proof.EncodingProofs

/-! PROOFS. What a bus monitor reports of a whole transaction (spec/30_encoding.md R50 to R55). -/

namespace Sys2Proof.EncodingProofs

open Sys2Proof.Machine Sys2Proof.Laws

/-! ### What a monitor reports while the clock line is driven low between cells -/

/-- Unless a clock stretch timed out, a monitor that starts with the clock low reports `ys` from `b` to `c` and
ends with the clock low. -/
def Reports (b c : Bus) (ys : List WireSymbol) : Prop :=
  ∀ m : Monitor, m.clockHigh = false →
    ∃ m' : Monitor, m'.clockHigh = false ∧ m'.seen = m.seen ++ ys ∧ Seen b c m m'

theorem Reports.refl (b : Bus) : Reports b b [] :=
  fun m hm => ⟨m, hm, (List.append_nil _).symm, Seen.refl b m⟩

theorem Reports.trans {a b c : Bus} {ys zs : List WireSymbol} (h : Reports a b ys) (g : Reports b c zs) :
    Reports a c (ys ++ zs) := by
  intro m hm
  obtain ⟨m₁, hlow₁, hseen₁, h₁⟩ := h m hm
  obtain ⟨m₂, hlow₂, hseen₂, h₂⟩ := g m₁ hlow₁
  exact ⟨m₂, hlow₂, by rw [hseen₂, hseen₁, List.append_assoc], h₁.trans h₂⟩

theorem reports_writeByte (p : Params) (role : ByteRole) (v : Byte) (b : Bus) :
    Reports b (writeByte p role v b).2 (wireByte (b.envSda.next p.sdaPin).1 v) := by
  rintro ⟨_, driven, saw, edge, xs⟩ rfl
  obtain ⟨d, s, e, h⟩ := seen_writeByte p role v b driven saw edge xs
  exact ⟨_, rfl, rfl, h⟩

theorem reports_readByte (p : Params) (ack : Bool) (b : Bus) :
    Reports b (readByte p ack b).2 (wireByte (!ack) (readByte p ack b).1) := by
  rintro ⟨_, driven, saw, edge, xs⟩ rfl
  obtain ⟨d, s, e, h⟩ := seen_readByte p ack b driven saw edge xs
  exact ⟨_, rfl, rfl, h⟩

/-- The data bytes of `END_TX` by the status: all of them acknowledged, or those before the unacknowledged one
(R54). -/
theorem reports_sendBytes (p : Params) (data : List Byte) (b : Bus) :
    ((sendBytes p data b).1 = .ok ∧ Reports b (sendBytes p data b).2 (data.flatMap (wireByte false))) ∨
    ((sendBytes p data b).1 = .dataNack ∧ ∃ before v after, data = before ++ v :: after ∧
      Reports b (sendBytes p data b).2 (before.flatMap (wireByte false) ++ wireByte true v)) := by
  induction data generalizing b with
  | nil => exact .inl ⟨rfl, Reports.refl b⟩
  | cons v rest ih =>
    have hbyte := reports_writeByte p .data v b
    rw [sendBytes_cons]
    cases hack : (b.envSda.next p.sdaPin).1 with
    | false =>
      rw [hack] at hbyte
      rw [if_pos (by simp [hack])]
      rcases ih (writeByte p .data v b).2 with ⟨hok, hrest⟩ | ⟨hnack, before, u, after, rfl, hrest⟩
      · exact .inl ⟨hok, hbyte.trans hrest⟩
      · refine .inr ⟨hnack, v :: before, u, after, rfl, ?_⟩
        rw [List.flatMap_cons, List.append_assoc]
        exact hbyte.trans hrest
    | true =>
      rw [hack] at hbyte
      rw [if_neg (by simp [hack])]
      exact .inr ⟨rfl, [], v, rest, rfl, hbyte⟩

/-- The bytes the loop of `REQUEST_FROM` has received, as the cells hold them (R55). -/
theorem reports_receivedUpto (p : Params) (n : Nat) (rx : Vector Byte 32) (b : Bus) (k : Nat) (hk : k ≤ 32) :
    Reports b (receivedUpto p n rx b k).2 ((List.range k).flatMap fun i =>
      wireByte (!decide (i < n - 1)) ((receivedUpto p n rx b k).1[i]?.getD 0)) := by
  induction k with
  | zero => exact Reports.refl b
  | succ k ih =>
    rw [receivedUpto_succ, List.range_succ, List.flatMap_append]
    have hbyte := reports_readByte p (decide (k < n - 1)) (receivedUpto p n rx b k).2
    have hearlier : ∀ i ∈ List.range k, ∀ v,
        ((receivedUpto p n rx b k).1.setIfInBounds k v)[i]? = (receivedUpto p n rx b k).1[i]? := by
      intro i hi v
      have hne : k ≠ i := by have := List.mem_range.1 hi; omega
      simp [hne]
    rw [List.flatMap_congr fun i hi => by rw [hearlier i hi]]
    simpa [Vector.getElem?_setIfInBounds, show k < 32 by omega] using (ih (by omega)).trans hbyte

/-! ### What a monitor on an idle bus reports -/

/-- Unless a clock stretch timed out, the events from `b` to `c` read as `ys`. -/
def ReadsAs (b c : Bus) (ys : List WireSymbol) : Prop :=
  c.stretchTimedOut = false → wireSymbols (c.events.drop b.events.length) = ys

theorem readsAs_of_seen {b c : Bus} {m : Monitor} (h : Seen b c Monitor.idle m) : ReadsAs b c m.seen := by
  intro hc
  obtain ⟨-, es, hadded, hsee⟩ := h hc
  rw [hadded.drop, wireSymbols, hsee]

/-- A transaction on the wire: START, the address byte, what follows it, and STOP (R53). -/
def wireFrame (ninth : Level) (address : Byte) (body : List WireSymbol) : List WireSymbol :=
  [WireSymbol.start] ++ wireByte ninth address ++ body ++ [WireSymbol.stop]

/-- A transaction reads as a frame when what follows the address byte reads as the frame's body. -/
theorem readsAs_transaction (p : Params) (a : Addr) (d : Direction) (b c : Bus) {ys : List WireSymbol}
    (h : Reports (addressSent p a d b).2 c ys) :
    ReadsAs b (stopCondition p c) (wireFrame (b.envSda.next p.sdaPin).1 (addrByte a d) ys) := by
  have haddress := reports_writeByte p .address (addrByte a d) (startCondition p b)
  rw [startCondition_envSda] at haddress
  obtain ⟨⟨_, driven, saw, edge, xs⟩, rfl, rfl, hbody⟩ :=
    (haddress.trans h) ⟨false, true, false, true, [.start]⟩ rfl
  have hall := ((seen_startCondition p b false false []).trans hbody).trans
    (seen_stopCondition p c driven saw edge _)
  simpa [wireFrame] using readsAs_of_seen hall

/-- The frame of `END_TX` by the status (R54). -/
theorem readsAs_writeTransaction (p : Params) (a : Addr) (data : List Byte) (b : Bus) :
    ((writeTransaction p a data b).1 = .ok ∧ ReadsAs b (writeTransaction p a data b).2
      (wireFrame false (addrByte a .write) (data.flatMap (wireByte false)))) ∨
    ((writeTransaction p a data b).1 = .addrNack ∧ ReadsAs b (writeTransaction p a data b).2
      (wireFrame true (addrByte a .write) [])) ∨
    ((writeTransaction p a data b).1 = .dataNack ∧ ∃ before v after, data = before ++ v :: after ∧
      ReadsAs b (writeTransaction p a data b).2
        (wireFrame false (addrByte a .write) (before.flatMap (wireByte false) ++ wireByte true v))) := by
  have hframe := fun c ys => readsAs_transaction p a .write b c (ys := ys)
  rw [writeTransaction_eq]
  cases hack : (b.envSda.next p.sdaPin).1 with
  | true =>
    rw [hack] at hframe
    rw [if_neg (by simp [hack])]
    exact .inr (.inl ⟨rfl, hframe _ _ (Reports.refl _)⟩)
  | false =>
    rw [hack] at hframe
    rw [if_pos (by simp [hack])]
    rcases reports_sendBytes p data (addressSent p a .write b).2 with
      ⟨hok, hdata⟩ | ⟨hnack, before, v, after, hsplit, hdata⟩
    · exact .inl ⟨hok, hframe _ _ hdata⟩
    · exact .inr (.inr ⟨hnack, before, v, after, hsplit, hframe _ _ hdata⟩)

/-- Settles O30: each cell of the transaction reads as its bit, and the status says where the cells end. The
monitor starts idle by definition, so the released lines of the premise are not used. -/
theorem endTxOnTheWire : Obligations.EndTxOnTheWire := by
  intro s _
  rcases readsAs_writeTransaction s.params s.addr s.queued s.bus with
    ⟨hst, hreads⟩ | ⟨hst, hreads⟩ | ⟨hst, before, v, after, hsplit, hreads⟩
  · exact ⟨_, .ok, rfl, congrArg (some <| Response.status ·) hst, hreads⟩
  · rw [wireFrame, List.append_nil] at hreads
    exact ⟨_, .addrNack, rfl, congrArg (some <| Response.status ·) hst, hreads⟩
  · rw [wireFrame, ← List.append_assoc] at hreads
    exact ⟨_, .dataNack, rfl, congrArg (some <| Response.status ·) hst,
      fun hc => ⟨before, v, after, hsplit, hreads hc⟩⟩

theorem readTransaction_addrNack {p : Params} {b : Bus} (h : (b.envSda.next p.sdaPin).1 = true) (a : Addr)
    (n : Nat) (rx : Vector Byte 32) :
    readTransaction p a n rx b = ⟨false, rx, stopCondition p (addressSent p a .read b).2⟩ := by
  rw [readTransaction_eq, if_neg (by simp [h])]

theorem readTransaction_addrAck {p : Params} {b : Bus} (h : (b.envSda.next p.sdaPin).1 = false) (a : Addr)
    (n : Nat) (rx : Vector Byte 32) :
    readTransaction p a n rx b = ⟨true, (receivedUpto p n rx (addressSent p a .read b).2 n).1,
      stopCondition p (receivedUpto p n rx (addressSent p a .read b).2 n).2⟩ := by
  rw [readTransaction_eq, if_pos (by simp [h]), receiveBytes_eq]

/-- All bytes but the last are acknowledged (R55). -/
theorem receivedFrames_ninth {n i : Nat} (hi : i < n) : (!decide (i < n - 1)) = decide (i + 1 = n) := by
  rw [← decide_not, decide_eq_decide]
  omega

/-- Settles O33: as for `END_TX`; the received bytes stand in the cells below the length. -/
theorem requestFromOnTheWire : Obligations.RequestFromOnTheWire := by
  intro a count s _
  refine ⟨_, rfl, ?_⟩
  have hframe := fun c ys => readsAs_transaction s.params a .read s.bus c (ys := ys)
  cases hack : (s.bus.envSda.next s.params.sdaPin).1 with
  | true =>
    rw [hack] at hframe
    rw [readTransaction_addrNack hack, if_pos (rfl : true = true)]
    have hreads := hframe _ _ (Reports.refl _)
    rwa [wireFrame, List.append_nil] at hreads
  | false =>
    rw [hack] at hframe
    rw [readTransaction_addrAck hack, if_neg Bool.false_ne_true]
    have hdata := reports_receivedUpto s.params (clampCount count).val s.rxBuf
      (addressSent s.params a .read s.bus).2 (clampCount count).val (Nat.le_of_lt_succ (clampCount count).isLt)
    rw [List.flatMap_congr fun i hi => by rw [receivedFrames_ninth (List.mem_range.1 hi)]] at hdata
    have hreads := hframe _ _ hdata
    exact hreads

end Sys2Proof.EncodingProofs

/-! PROOFS. The line primitives (spec/40_line_primitives.md): what each leaves on its line, that the other line
is untouched, and which events drive a line high. -/

namespace Sys2Proof.LineProofs

open Sys2Proof.Machine Sys2Proof.Laws

/-! ### With the latch low no line is driven high -/

/-- From `b` to `c` no event drives a line high. -/
def NeverHigh (b c : Bus) : Prop := ∃ es, Added b c es ∧ ∀ e ∈ es, e.drivesHigh = false

theorem neverHigh_single {b c : Bus} {e : Event} (h : Added b c [e]) (he : e.drivesHigh = false) :
    NeverHigh b c :=
  ⟨[e], h, by simpa using he⟩

theorem NeverHigh.newEvents {s t : State} (h : NeverHigh s.bus t.bus) :
    ∀ e ∈ newEvents s t, e.drivesHigh = false := by
  obtain ⟨es, hadded, hlow⟩ := h
  rwa [Machine.newEvents, hadded.drop]

/-- `closed_never_high` covers what the transactions are built of; beside that an operation can release or
sample the clock line and make the delays of R74 and R75, one event each. -/
theorem exec_neverHigh {i : Instr} {s t : State} (hp : s.params.outLatch = .low) (h : exec i s = .next t) :
    NeverHigh s.bus t.bus := by
  have hc : Closed s.params fun _ => NeverHigh := closed_never_high s.params hp
  have hrelease (l : Line) (b : Bus) : NeverHigh b (release l b) := neverHigh_single (release_events l b) rfl
  have hstabilize (b : Bus) : NeverHigh b (stabilizeWait b) := neverHigh_single (stabilizeWait_events b) rfl
  cases i <;> obtain rfl := Host.Outcome.next.inj h
  case beginBus =>
    exact hc.trans (m := 0) (n := 0) (hc.trans (m := 0) (n := 0) (hrelease .sda _) (hrelease .scl _))
      (hstabilize _)
  case beginTx => exact hc.refl _
  case write => simpa using hc.refl s.bus
  case endTx =>
    obtain ⟨k, -, hk⟩ := hc.writeTransaction s.addr s.queued s.bus
    exact hk
  case requestFrom a count =>
    obtain ⟨k, -, hk⟩ := hc.readTransaction a (clampCount count).val s.rxBuf s.bus
    exact hk
  case read => simpa using hc.refl s.bus
  case available => exact hc.refl _
  case driveLow l => exact hc.driveLow l _
  case release l => exact hrelease l _
  case sample l => exact neverHigh_single (sample_events _ l _) rfl
  case halfDelay => exact hc.halfDelay _
  case pollDelay => exact neverHigh_single (pollDelay_events _) rfl
  case stabilizeWait => exact hstabilize _
  case sclReleaseWait => exact hc.sclReleaseWait _
  case start => exact hc.startCondition _
  case stop => exact hc.stopCondition _
  case writeBit v => exact hc.writeBit v _
  case readBit => exact hc.readBit _
  case writeByte v => exact hc.writeByte _ v { s.bus with draws := s.bus.draws + 1 }
  case readByte ack => exact hc.readByte ack _

/-- Settles O46: an operation answers, and none of the events it adds drives a line high. -/
theorem lowLatchNeverDrivesHigh : Obligations.LowLatchNeverDrivesHigh := by
  intro i s hp
  obtain ⟨t, hexec, -⟩ := exec_next i s
  exact ⟨t, hexec, (exec_neverHigh hp hexec).newEvents⟩

/-! ### The level of a line by the mode of its pin (spec/20_memory.md R37) -/

theorem level_of_outLow {b : Bus} {l : Line} (h : (b.pin l).mode = .outLow) (p : Params) (moment : Nat)
    (envLow : Bool) : b.level p l moment envLow = false := by
  simp [Bus.level, wireLevel, h]

theorem level_of_inPullup {b : Bus} {l : Line} (h : (b.pin l).mode = .inPullup) (p : Params) (moment : Nat)
    (envLow : Bool) : b.level p l moment envLow = !envLow := by
  simp [Bus.level, wireLevel, h]

/-! ### `DriveLow` (spec/40_line_primitives.md R70) -/

theorem driveLow_pin_mode (p : Params) (l : Line) (b : Bus) : ((driveLow p l b).pin l).mode = .outLow := by
  simp [driveLow, assertLow]

theorem driveLow_env (p : Params) (l m : Line) (b : Bus) : (driveLow p l b).env m = b.env m := by
  cases m <;> simp

theorem driveLow_untouched (p : Params) (l : Line) (b : Bus) : LineUntouched l.other b (driveLow p l b) :=
  ⟨by cases l <;> rfl, driveLow_env p l _ b⟩

theorem driveLow_trace (p : Params) (l : Line) (b : Bus) : (driveLow p l b).trace =
    b.trace ++ [⟨b.phase, .latchOut l (latchOnConfig p l b)⟩, ⟨b.phase, .low l⟩] := by
  simp [driveLow, assertLow, configureOutput]

/-- Settles O9: the level in the transient is `latchOnConfig`, which follows the parameter. -/
theorem driveLowPullsLine : Obligations.DriveLowPullsLine := by
  intro l s
  have hmode := driveLow_pin_mode s.params l s.bus
  refine ⟨by cases l <;> rfl, _, latchOnConfig s.params l s.bus, rfl, rfl, rfl, hmode,
    level_of_outLow hmode s.params, driveLow_trace _ l _, ?low, ?high, ?any,
    driveLow_untouched _ l _, driveLow_env _ l l _, driveLow_phase _ l _, driveLow_stretchTimedOut _ l _⟩
  all_goals
    intro h
    simp [latchOnConfig, drawsOnConfig, h]

/-! ### `Release` (R71) -/

theorem release_pin_mode (l : Line) (b : Bus) : ((release l b).pin l).mode = .inPullup := by
  simp [release, configureInput]

theorem release_env (l m : Line) (b : Bus) : (release l b).env m = b.env m := by
  cases m <;> simp

theorem release_untouched (l : Line) (b : Bus) : LineUntouched l.other b (release l b) :=
  ⟨by cases l <;> rfl, release_env l _ b⟩

theorem release_trace (l : Line) (b : Bus) : (release l b).trace = b.trace ++ [⟨b.phase, .floated l⟩] := by
  simp [release, configureInput]

/-- Settles O10: the pin is an input with pull-up, so the environment alone decides the level. -/
theorem releaseFloatsLine : Obligations.ReleaseFloatsLine := by
  intro l s
  have hmode := release_pin_mode l s.bus
  exact ⟨by cases l <;> rfl, _, rfl, rfl, rfl, hmode, level_of_inPullup hmode s.params, release_trace l _,
    release_untouched l _, release_env l l _, release_phase l _, release_stretchTimedOut l _,
    release_draws l _⟩

/-! ### `Sample` (R72) -/

theorem sample_pin_mode (p : Params) (l : Line) (b : Bus) : ((sample p l b).2.pin l).mode = .inPullup := by
  simp [sample, configureInput]

theorem sample_env (p : Params) (l : Line) (b : Bus) :
    (sample p l b).2.env l = ((b.env l).next (p.pinOf l)).2 := by
  simp [sample]

theorem sample_untouched (p : Params) (l : Line) (b : Bus) : LineUntouched l.other b (sample p l b).2 := by
  cases l <;> exact ⟨rfl, rfl⟩

theorem sample_trace (p : Params) (l : Line) (b : Bus) :
    (sample p l b).2.trace = b.trace ++ [⟨b.phase, .sampled l (sample p l b).1⟩] := by
  simp [sample, configureInput]

/-- Settles O11: the pin is released before the line is read, so the environment's answer is the level. -/
theorem sampleReleasesAndReads : Obligations.SampleReleasesAndReads := by
  intro l s
  have hmode := sample_pin_mode s.params l s.bus
  refine ⟨by cases l <;> rfl, _, (sample s.params l s.bus).1, rfl, rfl, rfl, sample_fst _ l _, hmode,
    fun moment => ?level, sample_trace _ l _, sample_env _ l _, sample_untouched _ l _, sample_phase _ l _,
    sample_stretchTimedOut _ l _, sample_draws _ l _⟩
  have hlevel := level_of_inPullup hmode s.params moment (!(sample s.params l s.bus).1)
  rw [Bool.not_not] at hlevel
  exact hlevel.symm

/-! ### The delays (R73 to R75) -/

/-- Settles O12: a delay is one event emitted. -/
theorem delaysWriteNoState : Obligations.DelaysWriteNoState := by
  rintro s i e w (⟨rfl, rfl, rfl⟩ | ⟨rfl, rfl, rfl⟩ | ⟨rfl, rfl, rfl⟩)
  · exact ⟨rfl, rfl⟩
  · exact ⟨rfl, rfl⟩
  · exact ⟨rfl, rfl⟩

end Sys2Proof.LineProofs

/-! PROOFS. The protocol primitives (spec/41_protocol_primitives.md): two runs with the same answers on the data
line. -/

namespace Sys2Proof.Machine

open Sys2Proof.Laws

/-! ### States that differ in everything about the clock line -/

variable {s t : State}

theorem SameButClock.finish (h : SameButClock s t) {b c : Bus} (henv : b.envSda = c.envSda) (r q : Response) :
    SameButClock (s.finish b r) (t.finish c q) :=
  ⟨h.addr, h.txLen, h.rxLen, h.rxCur, h.txActive, h.txBuf, h.rxBuf, h.records, h.sdaPin, henv⟩

theorem SameButClock.beginTx (h : SameButClock s t) (a : Addr) :
    SameButClock { s with txLen := 0, addr := a }.markInProgress { t with txLen := 0, addr := a }.markInProgress :=
  ⟨rfl, rfl, h.rxLen, h.rxCur, rfl, h.txBuf, h.rxBuf, h.records, h.sdaPin, h.envSda⟩

theorem SameButClock.clearTx (h : SameButClock s t) : SameButClock s.clearTx t.clearTx :=
  ⟨h.addr, rfl, h.rxLen, h.rxCur, rfl, h.txBuf, h.rxBuf, h.records, h.sdaPin, h.envSda⟩

theorem SameButClock.queued (h : SameButClock s t) : s.queued = t.queued := by
  simp [State.queued, h.txBuf, h.txLen]

theorem SameButClock.nextUnread (h : SameButClock s t) : s.nextUnread = t.nextUnread := by
  simp [State.nextUnread, h.rxCur, h.rxLen, h.rxBuf]

theorem SameButClock.unreadCount (h : SameButClock s t) : s.unreadCount = t.unreadCount := by
  simp [State.unreadCount, h.rxCur, h.rxLen]

/-- `WRITE` finds room in both buffers or in neither. -/
theorem SameButClock.pushTx (h : SameButClock s t) (b : Byte) : SameButClock (s.pushTx b) (t.pushTx b) := by
  rcases Nat.lt_or_ge s.txLen.val 32 with hlt | hge
  · have hlen : (s.pushTx b).txLen = (t.pushTx b).txLen := by
      simp [Fin.ext_iff, pushTx_txLen, hlt, ← h.txLen]
    have hbuf : (s.pushTx b).txBuf = (t.pushTx b).txBuf := by
      simp [pushTx_txBuf, hlt, ← h.txLen, h.txBuf]
    exact ⟨by simp [h.addr], hlen, by simp [h.rxLen], by simp [h.rxCur], by simp [h.txActive], hbuf,
      by simp [h.rxBuf], by simp [h.records], by simp [h.sdaPin], by simp [h.envSda]⟩
  · have hfull : s.txLen.val = 32 := by omega
    rwa [pushTx_full s b hfull, pushTx_full t b (h.txLen ▸ hfull)]

/-- `READ` finds an unread byte in both states or in neither. -/
theorem SameButClock.advanceRx (h : SameButClock s t) : SameButClock s.advanceRx t.advanceRx := by
  rcases Nat.lt_or_ge s.rxCur.val s.rxLen.val with hlt | hge
  · have hcur : s.advanceRx.rxCur = t.advanceRx.rxCur := by
      simp [Fin.ext_iff, advanceRx_rxCur, hlt, ← h.rxCur, ← h.rxLen]
    exact ⟨by simp [h.addr], by simp [h.txLen], by simp [h.rxLen], hcur, by simp [h.txActive],
      by simp [h.txBuf], by simp [h.rxBuf], by simp [h.records], by simp [h.sdaPin], by simp [h.envSda]⟩
  · rwa [advanceRx_empty s hge, advanceRx_empty t (h.rxLen ▸ h.rxCur ▸ hge)]

end Sys2Proof.Machine

namespace Sys2Proof.ProtocolProofs

open Sys2Proof.Machine Sys2Proof.Laws Sys2Proof.StateProofs

/-! ### Runs with the same answers on the data line (R90) -/

/-- From `b` to `b'` and from `c` to `c'` the same pin events happened but for the clock polls, and the same
answers are left on the data line. -/
def SameShown (b b' c c' : Bus) : Prop :=
  b'.envSda = c'.envSda ∧ ∃ es, b'.coarse = b.coarse ++ es ∧ c'.coarse = c.coarse ++ es

theorem SameShown.trans {b b₁ b₂ c c₁ c₂ : Bus} (h : SameShown b b₁ c c₁) (g : SameShown b₁ b₂ c₁ c₂) :
    SameShown b b₂ c c₂ := by
  obtain ⟨-, es, hb, hc⟩ := h
  obtain ⟨henv, fs, hb₁, hc₁⟩ := g
  exact ⟨henv, es ++ fs, by rw [hb₁, hb, List.append_assoc], by rw [hc₁, hc, List.append_assoc]⟩

section
variable {p q : Params} {b c : Bus}

theorem sameShown_stopCondition (h : b.envSda = c.envSda) :
    SameShown b (stopCondition p b) c (stopCondition q c) :=
  ⟨by simp [h], stopCell, by simp, by simp⟩

theorem sameShown_addressSent (hp : p.sdaPin = q.sdaPin) (h : b.envSda = c.envSda) (a : Addr) (d : Direction) :
    (addressSent p a d b).1 = (addressSent q a d c).1 ∧
      SameShown b (addressSent p a d b).2 c (addressSent q a d c).2 :=
  ⟨by simp [h, hp], by simp [h, hp],
    startCell ++ sentByte (c.envSda.next q.sdaPin).1 (addrByte a d), by simp [h, hp], by simp⟩

theorem sameShown_writeTransaction (hp : p.sdaPin = q.sdaPin) (h : b.envSda = c.envSda) (a : Addr)
    (data : List Byte) :
    (writeTransaction p a data b).1 = (writeTransaction q a data c).1 ∧
      SameShown b (writeTransaction p a data b).2 c (writeTransaction q a data c).2 := by
  obtain ⟨hack, haddress⟩ := sameShown_addressSent hp h a .write
  obtain ⟨hstatus, hdata⟩ := sendBytes_same_answers p q hp data _ _ haddress.1
  rw [writeTransaction_eq, writeTransaction_eq, hack]
  split
  · exact ⟨hstatus, (haddress.trans hdata).trans (sameShown_stopCondition hdata.1)⟩
  · exact ⟨rfl, haddress.trans (sameShown_stopCondition haddress.1)⟩

theorem sameShown_readTransaction (hp : p.sdaPin = q.sdaPin) (h : b.envSda = c.envSda) (a : Addr) (n : Nat)
    (rx : Vector Byte 32) :
    (readTransaction p a n rx b).addressAcked = (readTransaction q a n rx c).addressAcked ∧
      (readTransaction p a n rx b).cells = (readTransaction q a n rx c).cells ∧
      SameShown b (readTransaction p a n rx b).bus c (readTransaction q a n rx c).bus := by
  obtain ⟨hack, haddress⟩ := sameShown_addressSent hp h a .read
  obtain ⟨hcells, hdata⟩ := receivedUpto_same_answers p q hp n rx _ _ n haddress.1
  rw [readTransaction_eq, readTransaction_eq, hack]
  split
  · exact ⟨rfl, hcells, (haddress.trans hdata).trans (sameShown_stopCondition hdata.1)⟩
  · exact ⟨rfl, rfl, haddress.trans (sameShown_stopCondition haddress.1)⟩

end

/-- From `s` and `t` the operation answers the same and shows the same but for the clock line. -/
def ClockHidden (i : Instr) (s t : State) : Prop :=
  ∃ s' t' es, exec i s = .next s' ∧ exec i t = .next t' ∧ s'.response = t'.response ∧
    SameButClock s' t' ∧ s'.bus.coarse = s.bus.coarse ++ es ∧ t'.bus.coarse = t.bus.coarse ++ es

/-- Every operation ends by leaving a bus and answering. -/
theorem clockHidden_of_finish {i : Instr} {s t s₁ t₁ : State} {b c : Bus} {r q : Response}
    (h : SameButClock s₁ t₁) (hs : exec i s = .next (s₁.finish b r)) (ht : exec i t = .next (t₁.finish c q))
    (hrq : r = q) (hshown : SameShown s.bus b t.bus c) : ClockHidden i s t := by
  obtain ⟨henv, es, hb, hc⟩ := hshown
  exact ⟨_, _, es, hs, ht, congrArg some hrq, h.finish henv r q, hb, hc⟩

theorem clockHidden_endTx {s t : State} (h : SameButClock s t) : ClockHidden .endTx s t := by
  obtain ⟨hstatus, hshown⟩ := sameShown_writeTransaction h.sdaPin h.envSda s.addr s.queued
  exact clockHidden_of_finish h.clearTx rfl (by rw [h.addr, h.queued]; rfl) (congrArg Response.status hstatus) hshown

theorem clockHidden_requestFrom {s t : State} (h : SameButClock s t) (a : Addr) (count : Byte) :
    ClockHidden (.requestFrom a count) s t := by
  obtain ⟨hacked, hcells, hshown⟩ := sameShown_readTransaction h.sdaPin h.envSda a (clampCount count).val s.rxBuf
  have haddr : s.addrAfterRequest a = t.addrAfterRequest a := by
    simp [State.addrAfterRequest, h.records, h.addr]
  rw [h.rxBuf] at hacked hcells hshown
  refine clockHidden_of_finish ?_ rfl rfl ?_ (h.rxBuf ▸ hshown)
  · exact ⟨haddr, h.txLen, by simp only [h.rxBuf, hacked], rfl, h.txActive, h.txBuf,
      by simp only [h.rxBuf, hcells], h.records, h.sdaPin, h.envSda⟩
  · simp only [h.rxBuf, hacked]

/-- Settles O23: what an operation answers and shows is given by the answers on the data line. -/
theorem stretchingNeverShows : Obligations.StretchingNeverShows := by
  intro i s t hi h
  have hpin := h.sdaPin
  have henv := h.envSda
  show ClockHidden i s t
  cases i with
  | beginBus =>
    exact clockHidden_of_finish h rfl rfl rfl
      ⟨by simp [henv], [.floated .sda, .floated .scl, .stabilize], by simp, by simp⟩
  | beginTx a =>
    exact clockHidden_of_finish (b := s.bus) (c := t.bus) (h.beginTx a) rfl rfl rfl ⟨henv, [], by simp, by simp⟩
  | write b =>
    exact clockHidden_of_finish (h.pushTx b) (b := (s.pushTx b).bus) (c := (t.pushTx b).bus) rfl rfl
      (by rw [h.txLen]) ⟨by simp [henv], [], by simp, by simp⟩
  | endTx => exact clockHidden_endTx h
  | requestFrom a count => exact clockHidden_requestFrom h a count
  | read =>
    exact clockHidden_of_finish h.advanceRx (b := s.advanceRx.bus) (c := t.advanceRx.bus) rfl rfl
      (by rw [h.nextUnread]) ⟨by simp [henv], [], by simp, by simp⟩
  | available =>
    exact clockHidden_of_finish h (b := s.bus) (c := t.bus) rfl rfl (by rw [h.unreadCount])
      ⟨henv, [], by simp, by simp⟩
  | driveLow l =>
    exact clockHidden_of_finish h rfl rfl rfl ⟨by simp [henv], [.low l], by simp, by simp⟩
  | release l =>
    exact clockHidden_of_finish h rfl rfl rfl ⟨by simp [henv], [.floated l], by simp, by simp⟩
  | sample l =>
    cases l with
    | scl => exact absurd rfl hi
    | sda =>
      exact clockHidden_of_finish h rfl rfl (by simp [henv, hpin])
        ⟨by simp [henv, hpin], [.sampled .sda (t.bus.envSda.next t.params.sdaPin).1], by simp [henv, hpin],
          by simp⟩
  | halfDelay => exact clockHidden_of_finish h rfl rfl rfl ⟨by simp [henv], [.half], by simp, by simp⟩
  | pollDelay => exact clockHidden_of_finish h rfl rfl rfl ⟨by simp [henv], [], by simp, by simp⟩
  | stabilizeWait =>
    exact clockHidden_of_finish h rfl rfl rfl ⟨by simp [henv], [.stabilize], by simp, by simp⟩
  | sclReleaseWait =>
    exact clockHidden_of_finish h rfl rfl rfl ⟨by simp [henv], [.floated .scl], by simp, by simp⟩
  | start => exact clockHidden_of_finish h rfl rfl rfl ⟨by simp [henv], startCell, by simp, by simp⟩
  | stop => exact clockHidden_of_finish h rfl rfl rfl (sameShown_stopCondition henv)
  | writeBit v => exact clockHidden_of_finish h rfl rfl rfl ⟨by simp [henv], writeCell v, by simp, by simp⟩
  | readBit =>
    exact clockHidden_of_finish h rfl rfl (by simp [henv, hpin])
      ⟨by simp [henv, hpin], readCell (t.bus.envSda.next t.params.sdaPin).1, by simp [henv, hpin], by simp⟩
  | writeByte v =>
    exact clockHidden_of_finish h rfl rfl (by simp [henv, hpin])
      ⟨by simp [henv, hpin], sentByte (t.bus.envSda.next t.params.sdaPin).1 v,
        by rw [writeByte_coarse, henv, hpin]; rfl, by rw [writeByte_coarse]; rfl⟩
  | readByte ack =>
    exact clockHidden_of_finish h rfl rfl (by simp [henv, hpin])
      ⟨by simp [henv, hpin], receivedByte (!ack) (byteOfBits (takeAnswers t.params.sdaPin 8 t.bus.envSda).1),
        by simp [henv, hpin], by simp⟩

end Sys2Proof.ProtocolProofs

/-! PROOFS. The protocol primitives, one by one: what each puts on the pins and leaves there. -/

namespace Sys2Proof.ProtocolProofs

open Sys2Proof.Machine Sys2Proof.Laws Sys2Proof.StateProofs

/-! ### `SclReleaseWait` (R80) -/

theorem sclReleaseWait_untouched (p : Params) (b : Bus) : LineUntouched .sda b (sclReleaseWait p b) :=
  ⟨sclReleaseWait_sda p b, sclReleaseWait_envSda p b⟩

/-- Corner cases (a) and (b): the clock line is seen high below the bound. -/
theorem sclReleaseWait_honoured (p : Params) {j n : Nat} {rest : List Level} {b : Bus}
    (hj : j < p.stretchMaxPolls) (h : b.envScl = ⟨List.replicate j false ++ true :: rest, n⟩) :
    (sclReleaseWait p b).envScl = ⟨rest, n⟩ ∧
      (sclReleaseWait p b).events = b.events ++ stretchHonoured j ∧
      (sclReleaseWait p b).stretchTimedOut = b.stretchTimedOut := by
  obtain ⟨m, hm⟩ := Nat.exists_eq_add_of_le (Nat.succ_le_of_lt hj)
  have hreleased : (release .scl b).envScl = ⟨List.replicate j false ++ true :: rest, n⟩ := h
  obtain ⟨henv, hflag, hevents⟩ := pollLoop_honoured p j m n rest _ hreleased
  rw [sclReleaseWait, hm]
  exact ⟨henv, by simp [hevents, stretchHonoured], hflag⟩

/-- Corner case (c): the clock line is low at every poll. -/
theorem sclReleaseWait_expired (p : Params) {n : Nat} {rest : List Level} {b : Bus}
    (h : b.envScl = ⟨List.replicate p.stretchMaxPolls false ++ rest, n⟩) :
    (sclReleaseWait p b).envScl = ⟨rest, n⟩ ∧
      (sclReleaseWait p b).events = b.events ++ stretchExpired p.stretchMaxPolls ∧
      (sclReleaseWait p b).stretchTimedOut = true := by
  have hreleased : (release .scl b).envScl = ⟨List.replicate p.stretchMaxPolls false ++ rest, n⟩ := h
  obtain ⟨henv, hflag, hevents⟩ := pollLoop_expired p _ n rest _ hreleased
  exact ⟨henv, by simp [sclReleaseWait, hevents, stretchExpired], hflag⟩

/-- Settles O13: the two cases are those of the poll loop. -/
theorem sclReleaseWaitIsBounded : Obligations.SclReleaseWaitIsBounded := by
  intro s
  have hmode : (sclReleaseWait s.params s.bus).scl.mode = .inPullup := by simp
  exact ⟨rfl, _, rfl, rfl, rfl, hmode, sclReleaseWait_untouched _ _, sclReleaseWait_phase _ _,
    sclReleaseWait_draws _ _, sclReleaseWait_added _ _⟩

/-- Settles O14: the poll loop takes the written answers one by one. -/
theorem sclReleaseWaitFollowsAnswers : Obligations.SclReleaseWaitFollowsAnswers := by
  intro s rest n
  exact ⟨fun j hj h => ⟨_, rfl, sclReleaseWait_honoured s.params hj h⟩,
    fun h => ⟨_, rfl, sclReleaseWait_expired s.params h⟩⟩

/-! ### What the primitives perform (R81 to R86) -/

/-- From `b` to `c` the clock line was released, sampled and polled by `SclReleaseWait` alone. -/
def Waits (p : Params) (b c : Bus) : Prop := ∃ es, Added b c es ∧ ClockWaits p.stretchMaxPolls es

theorem performs_of_waits {s t : State} {es : List Event} (hwaits : Waits s.params s.bus t.bus)
    (hcoarse : t.bus.coarse = s.bus.coarse ++ es) : Performs s t es := by
  obtain ⟨fs, hadded, hfs⟩ := hwaits
  exact ⟨hcoarse, by rwa [newEvents, hadded.drop]⟩

section
variable (s : State) (r : Response)

theorem performs_start : Performs s (s.finish (startCondition s.params s.bus) r) startCell :=
  performs_of_waits ((closed_waits s.params).startCondition s.bus) (startCondition_coarse _ _)

theorem performs_stop : Performs s (s.finish (stopCondition s.params s.bus) r) stopCell :=
  performs_of_waits ((closed_waits s.params).stopCondition s.bus) (stopCondition_coarse _ _)

theorem performs_writeBit (v : Level) : Performs s (s.finish (writeBit s.params v s.bus) r) (writeCell v) :=
  performs_of_waits ((closed_waits s.params).writeBit v s.bus) (writeBit_coarse _ _ _)

theorem performs_readBit : Performs s (s.finish (readBit s.params s.bus).2 r)
    (readCell (s.bus.envSda.next s.params.sdaPin).1) :=
  performs_of_waits ((closed_waits s.params).readBit s.bus) (readBit_coarse _ _)

theorem performs_readByte (ack : Bool) : Performs s (s.finish (readByte s.params ack s.bus).2 r)
    (receivedByte (!ack) (byteOfBits (takeAnswers s.params.sdaPin 8 s.bus.envSda).1)) :=
  performs_of_waits ((closed_waits s.params).readByte ack s.bus) (readByte_coarse _ _ _)

/-- An injected byte is sent after its role was drawn (log 10). -/
theorem performs_writeByte (role : ByteRole) (v : Byte) (n : Nat) :
    Performs s (s.finish (writeByte s.params role v { s.bus with draws := n }).2 r)
      (sentByte (s.bus.envSda.next s.params.sdaPin).1 v) :=
  performs_of_waits ((closed_waits s.params).writeByte role v { s.bus with draws := n }) (writeByte_coarse _ _ _ _)

end

/-- Settles O15: the transitions of `startCell`, all of them in phase START. -/
theorem startDrivesBothLow : Obligations.StartDrivesBothLow := by
  intro s
  have hphases : Visits [.start] s.bus (startCondition s.params s.bus) := visits_startCondition _ _
  exact ⟨rfl, _, rfl, rfl, rfl, by simp, by simp, startCondition_phase _ _,
    Visits.newPhases_runs hphases (by decide), startCondition_envSda _ _, performs_start s _⟩

/-- Settles O16: the transitions of `stopCell`, all of them in phase STOP. -/
theorem stopReleasesBoth : Obligations.StopReleasesBoth := by
  intro s
  have hphases : Visits [.stop] s.bus (stopCondition s.params s.bus) := visits_stopCondition _ _
  exact ⟨rfl, _, rfl, rfl, rfl, idle_stopCondition _ _, Visits.newPhases_runs hphases (by decide),
    stopCondition_envSda _ _, performs_stop s _⟩

/-- Settles O17: the cell takes no answer on the data line, and its mode on exit is the one its level asks for. -/
theorem writeBitSendsBit : Obligations.WriteBitSendsBit := by
  intro v s
  exact ⟨by cases v <;> rfl, _, rfl, rfl, rfl, by simp, writeBit_sda_mode _ v _, writeBit_phase _ v _,
    writeBit_envSda _ v _, performs_writeBit s _ v⟩

/-- Settles O18: the bit is the next answer on the data line. -/
theorem readBitReturnsSample : Obligations.ReadBitReturnsSample := by
  intro s
  have hbit := readBit_fst s.params s.bus
  exact ⟨rfl, _, _, rfl, rfl, rfl, hbit, readBit_envSda _ _, readBit_sda_mode _ _, by simp, readBit_phase _ _,
    hbit ▸ performs_readBit s _⟩

/-- Operand `B` is the low byte of the word (spec/30_encoding.md R57). -/
theorem packWord_operandB (op v : Byte) : packWord op 0 v = packWord op 0 0 ||| v.setWidth 32 := by
  simp only [packWord, BitVec.append_def]
  ext i hi
  simp

/-- Settles O19: the ninth cell takes the only answer, and either role gives two phases that differ. -/
theorem writeByteReportsAck : Obligations.WriteByteReportsAck := by
  intro v s
  have hphases : Visits [rolePhase (injectedRole s.params s.bus), .ackOrNack] s.bus
      (writeByte s.params (injectedRole s.params s.bus) v { s.bus with draws := s.bus.draws + 1 }).2 :=
    visits_writeByte _ _ v { s.bus with draws := s.bus.draws + 1 }
  have hchain (role : ByteRole) : [rolePhase role, .ackOrNack].IsChain (· ≠ ·) := by
    cases role <;> decide
  exact ⟨packWord_operandB 0x25 v, _, _, rfl, rfl, congrArg (some <| Response.acked ·) (writeByte_fst _ _ v _),
    rfl, writeByte_envSda _ _ v _, writeByte_sda_mode _ _ v _, by simp, writeByte_phase _ _ v _,
    ⟨_, Visits.newPhases_runs hphases (hchain _)⟩, performs_writeByte s _ _ v _⟩

/-- Settles O20: the byte is shifted in from the next eight answers, which are its bits when they are written so. -/
theorem readByteAssemblesBits : Obligations.ReadByteAssemblesBits := by
  intro ack s
  have hphases : Visits [.dataByte, .ackOrNack] s.bus (readByte s.params ack s.bus).2 := visits_readByte _ _ _
  refine ⟨by cases ack <;> rfl, _, _, rfl, rfl, congrArg (some <| Response.byte ·) (readByte_fst _ ack _),
    performs_readByte s _ ack, fun u rest n h => ?answers, readByte_sda_mode _ ack _, by simp,
    readByte_phase _ ack _, Visits.newPhases_runs hphases (by decide)⟩
  have htaken : takeAnswers s.params.sdaPin 8 s.bus.envSda = (msbFirst u, ⟨rest, n⟩) :=
    h ▸ takeAnswers_append s.params.sdaPin (msbFirst u) rest n
  exact ⟨by rw [htaken, byteOfBits_msbFirst], by simp [htaken]⟩

/-! ### Where the half-bit delays stand (R87) -/

theorem delaysPlaced_append {es : List Event} (h : delaysPlaced es = true) (fs : List Event) :
    delaysPlaced (es ++ fs) = delaysPlaced fs := by
  induction es using delaysPlaced.induct with
  | case1 => rfl
  | case2 l rest ih => exact ih h
  | case3 l rest ih => exact ih h
  | case4 l v rest ih => exact ih h
  | case5 es => simp_all [delaysPlaced]

theorem delaysPlaced_flatMap {α : Type} {f : α → List Event} (h : ∀ x, delaysPlaced (f x) = true) (l : List α) :
    delaysPlaced (l.flatMap f) = true := by
  induction l with
  | nil => rfl
  | cons x l ih => rwa [List.flatMap_cons, delaysPlaced_append (h x)]

theorem delaysPlaced_writeCell (v : Level) : delaysPlaced (writeCell v) = true := by
  cases v <;> rfl

theorem delaysPlaced_sentByte (ninth : Level) (v : Byte) : delaysPlaced (sentByte ninth v) = true := by
  rw [sentByte, delaysPlaced_append (delaysPlaced_flatMap delaysPlaced_writeCell _)]
  rfl

theorem delaysPlaced_receivedByte (ninth : Level) (v : Byte) : delaysPlaced (receivedByte ninth v) = true := by
  rw [receivedByte, delaysPlaced_append (delaysPlaced_flatMap (fun _ => rfl) _)]
  exact delaysPlaced_writeCell ninth

/-- From `b` to `c` every line transition was followed by one half-bit delay, and nothing else was. -/
def Delayed (b c : Bus) : Prop := ∃ es, c.coarse = b.coarse ++ es ∧ delaysPlaced es = true

theorem Delayed.refl (b : Bus) : Delayed b b := ⟨[], by simp, rfl⟩

theorem Delayed.trans {a b c : Bus} (h : Delayed a b) (g : Delayed b c) : Delayed a c := by
  obtain ⟨es, hes, hplaced⟩ := h
  obtain ⟨fs, hfs, hplaced'⟩ := g
  exact ⟨es ++ fs, by rw [hfs, hes, List.append_assoc], by rwa [delaysPlaced_append hplaced]⟩

theorem exec_delaysPlaced {i : Instr} {s t : State} (hexec : exec i s = .next t) (hdelayed : Delayed s.bus t.bus)
    (hwaits : Waits s.params s.bus t.bus) :
    ∃ t es, exec i s = .next t ∧ Performs s t es ∧ delaysPlaced es = true := by
  obtain ⟨es, hes, hplaced⟩ := hdelayed
  exact ⟨t, es, hexec, performs_of_waits hwaits hes, hplaced⟩

theorem delayed_stopCondition (p : Params) (b : Bus) : Delayed b (stopCondition p b) :=
  ⟨_, stopCondition_coarse p b, rfl⟩

theorem delayed_writeByte (p : Params) (role : ByteRole) (v : Byte) (b : Bus) :
    Delayed b (writeByte p role v b).2 :=
  ⟨_, writeByte_coarse p role v b, delaysPlaced_sentByte _ v⟩

theorem delayed_readByte (p : Params) (ack : Bool) (b : Bus) : Delayed b (readByte p ack b).2 :=
  ⟨_, readByte_coarse p ack b, delaysPlaced_receivedByte _ _⟩

theorem delayed_addressSent (p : Params) (a : Addr) (d : Direction) (b : Bus) :
    Delayed b (addressSent p a d b).2 :=
  Delayed.trans ⟨_, startCondition_coarse p b, rfl⟩ (delayed_writeByte p .address (addrByte a d) _)

theorem delayed_sendBytes (p : Params) (data : List Byte) (b : Bus) : Delayed b (sendBytes p data b).2 := by
  induction data generalizing b with
  | nil => exact Delayed.refl b
  | cons v rest ih =>
    rw [sendBytes_cons]
    split
    · exact (delayed_writeByte p .data v b).trans (ih _)
    · exact delayed_writeByte p .data v b

theorem delayed_receivedUpto (p : Params) (n : Nat) (rx : Vector Byte 32) (b : Bus) (k : Nat) :
    Delayed b (receivedUpto p n rx b k).2 := by
  induction k with
  | zero => exact Delayed.refl b
  | succ k ih =>
    rw [receivedUpto_succ]
    exact ih.trans (delayed_readByte p _ _)

theorem delayed_writeTransaction (p : Params) (a : Addr) (data : List Byte) (b : Bus) :
    Delayed b (writeTransaction p a data b).2 := by
  have haddress := delayed_addressSent p a .write b
  rw [writeTransaction_eq]
  split
  · exact (haddress.trans (delayed_sendBytes p data _)).trans (delayed_stopCondition p _)
  · exact haddress.trans (delayed_stopCondition p _)

theorem delayed_readTransaction (p : Params) (a : Addr) (n : Nat) (rx : Vector Byte 32) (b : Bus) :
    Delayed b (readTransaction p a n rx b).bus := by
  have haddress := delayed_addressSent p a .read b
  rw [readTransaction_eq]
  split
  · exact (haddress.trans (delayed_receivedUpto p n rx _ n)).trans (delayed_stopCondition p _)
  · exact haddress.trans (delayed_stopCondition p _)

/-- Settles O21: the primitives perform cells with the delays in place, the transactions are made of these. -/
theorem halfDelayAfterEveryTransition : Obligations.HalfDelayAfterEveryTransition := by
  rintro i s (rfl | rfl | ⟨v, rfl⟩ | rfl | ⟨v, rfl⟩ | ⟨ack, rfl⟩ | rfl | ⟨a, count, rfl⟩)
  · exact ⟨_, _, rfl, performs_start s _, rfl⟩
  · exact ⟨_, _, rfl, performs_stop s _, rfl⟩
  · exact ⟨_, _, rfl, performs_writeBit s _ v, delaysPlaced_writeCell v⟩
  · exact ⟨_, _, rfl, performs_readBit s _, rfl⟩
  · exact ⟨_, _, rfl, performs_writeByte s _ _ v _, delaysPlaced_sentByte _ v⟩
  · exact ⟨_, _, rfl, performs_readByte s _ ack, delaysPlaced_receivedByte _ _⟩
  · obtain ⟨_, -, hwaits⟩ := (closed_waits s.params).writeTransaction s.addr s.queued s.bus
    exact exec_delaysPlaced rfl (delayed_writeTransaction _ _ _ _) hwaits
  · obtain ⟨_, -, hwaits⟩ := (closed_waits s.params).readTransaction a (clampCount count).val s.rxBuf s.bus
    exact exec_delaysPlaced rfl (delayed_readTransaction _ _ _ _ _) hwaits

/-! ### How often the data line is sampled (R89) -/

/-- The number of samples of the data line. -/
def dataSamples (es : List Event) : Nat :=
  es.countP fun e => e = .sampled .sda true ∨ e = .sampled .sda false

theorem dataSamples_append (es fs : List Event) : dataSamples (es ++ fs) = dataSamples es + dataSamples fs :=
  List.countP_append

theorem dataSamples_writeCell (v : Level) : dataSamples (writeCell v) = 0 := by
  cases v <;> rfl

theorem dataSamples_readCell (v : Level) : dataSamples (readCell v) = 1 := by
  cases v <;> rfl

theorem dataSamples_flatMap {α : Type} {f : α → List Event} {k : Nat} (h : ∀ x, dataSamples (f x) = k)
    (l : List α) : dataSamples (l.flatMap f) = l.length * k := by
  induction l with
  | nil => exact (Nat.zero_mul k).symm
  | cons x l ih =>
    rw [List.flatMap_cons, dataSamples_append, h, ih, List.length_cons, Nat.add_mul, Nat.one_mul, Nat.add_comm]

theorem dataSamples_sentByte (ninth : Level) (v : Byte) : dataSamples (sentByte ninth v) = 1 := by
  rw [sentByte, dataSamples_append, dataSamples_flatMap dataSamples_writeCell, dataSamples_readCell]
  rfl

theorem dataSamples_receivedByte (ninth : Level) (v : Byte) : dataSamples (receivedByte ninth v) = 8 := by
  rw [receivedByte, dataSamples_append, dataSamples_flatMap dataSamples_readCell, dataSamples_writeCell]
  rfl

/-- Settles O22: a cell that is read holds one sample of the data line, a cell that is written none. -/
theorem dataLineSampleCounts : Obligations.DataLineSampleCounts := by
  rintro i k s (⟨rfl, rfl⟩ | ⟨rfl, rfl⟩ | ⟨⟨v, rfl⟩, rfl⟩ | ⟨rfl, rfl⟩ | ⟨⟨v, rfl⟩, rfl⟩ | ⟨⟨ack, rfl⟩, rfl⟩)
  · exact ⟨_, _, rfl, startCondition_coarse _ _, rfl⟩
  · exact ⟨_, _, rfl, stopCondition_coarse _ _, rfl⟩
  · exact ⟨_, _, rfl, writeBit_coarse _ v _, dataSamples_writeCell v⟩
  · exact ⟨_, _, rfl, readBit_coarse _ _, dataSamples_readCell _⟩
  · exact ⟨_, _, rfl, writeByte_coarse _ _ v _, dataSamples_sentByte _ v⟩
  · exact ⟨_, _, rfl, readByte_coarse _ ack _, dataSamples_receivedByte _ _⟩

end Sys2Proof.ProtocolProofs

/-! PROOFS. The transaction API (spec/42_transaction_api.md): what each command of the host answers, writes,
leaves unchanged and puts on the pins. -/

namespace Sys2Proof.TransactionProofs

open Sys2Proof.Machine Sys2Proof.Laws Sys2Proof.StateProofs Sys2Proof.LineProofs Sys2Proof.EncodingProofs
  Sys2Proof.ProtocolProofs

/-! ### Words with operands (spec/30_encoding.md R57) -/

/-- The operands are the two low bytes of the word, `A` above `B`. -/
theorem packWord_operands (op x y : Byte) :
    packWord op x y = packWord op 0 0 ||| (x.setWidth 32 <<< 8) ||| y.setWidth 32 := by
  simp only [packWord, BitVec.append_def, BitVec.shiftLeftZeroExtend_eq, BitVec.setWidth'_eq]
  ext i hi
  simp [Bool.and_or_distrib_left]

/-- A 7-bit address in field `A` (R59). -/
theorem packWord_address (op : Byte) (a : Addr) (y : Byte) :
    packWord op (a.setWidth 8) y = packWord op 0 0 ||| (a.setWidth 32 <<< 8) ||| y.setWidth 32 := by
  have ha : (a.setWidth 8).setWidth 32 = a.setWidth 32 := by
    ext i hi
    simp
  rw [packWord_operands, ha]

/-! ### `BEGIN` and `BEGIN_TX` (R100, R101) -/

/-- Settles O25: both lines are released, so releasing them again changes the trace alone. -/
theorem beginReleasesLines : Obligations.BeginReleasesLines := by
  intro s
  refine ⟨rfl, _, rfl, rfl, rfl, rfl, rfl, rfl, rfl, rfl, ?trace, _, rfl, rfl⟩
  simp [stabilizeWait, release_trace]

/-- Settles O26: the address stands in field `A`. -/
theorem beginTxOpensTransmission : Obligations.BeginTxOpensTransmission := by
  intro a s
  exact ⟨(packWord_address 0x02 a 0).trans BitVec.or_zero, rfl⟩

/-! ### `WRITE` (R102) -/

theorem pushTx_eq (s : State) (b : Byte) :
    s.pushTx b = { s with txLen := (s.pushTx b).txLen, txBuf := (s.pushTx b).txBuf } := by
  unfold State.pushTx
  split <;> rfl

theorem pushTx_txCell_self {s : State} (h : s.txLen.val < 32) (b : Byte) :
    (s.pushTx b).txCell s.txLen.val = b := by
  simp [State.txCell, pushTx_txBuf s b h, h]

theorem pushTx_txCell_of_ne {s : State} (h : s.txLen.val < 32) (b : Byte) {j : Nat} (hj : j ≠ s.txLen.val) :
    (s.pushTx b).txCell j = s.txCell j := by
  simp [State.txCell, pushTx_txBuf s b h, hj.symm]

/-- Settles O27: `pushTx` appends below 32 and does nothing at 32. -/
theorem writeAppendsOrDrops : Obligations.WriteAppendsOrDrops := by
  intro b s
  refine ⟨packWord_operandB 0x03 b, fun hroom => ?appended, fun hfull => ?dropped⟩
  case appended =>
    exact ⟨_, rfl, by simp [hroom], pushTx_txLen s b hroom, pushTx_txCell_self hroom b,
      fun j hj => pushTx_txCell_of_ne hroom b hj, pushTx_queued s b hroom,
      congrArg (State.respond · _) (pushTx_eq s b)⟩
  case dropped =>
    simp [exec, execWrite, pushTx_full s b hfull, hfull, State.respond]

/-! ### `END_TX` (R103) -/

/-- A transaction without the clock-stretch polls: START, the address byte, what follows it, and STOP. -/
def cellFrame (ninth : Level) (address : Byte) (body : List Event) : List Event :=
  startCell ++ sentByte ninth address ++ body ++ stopCell

/-- A transaction performs a frame when what follows the address byte performs the frame's body. -/
theorem coarse_transaction (p : Params) (a : Addr) (d : Direction) (b c : Bus) {es : List Event}
    (h : c.coarse = (addressSent p a d b).2.coarse ++ es) :
    (stopCondition p c).coarse =
      b.coarse ++ cellFrame (b.envSda.next p.sdaPin).1 (addrByte a d) es := by
  simp [h, cellFrame]

/-- The cells of `END_TX` by the status (spec/30_encoding.md R54). -/
theorem writeTransaction_coarse (p : Params) (a : Addr) (data : List Byte) (b : Bus) :
    ((writeTransaction p a data b).1 = .ok ∧ (writeTransaction p a data b).2.coarse =
      b.coarse ++ cellFrame false (addrByte a .write) (data.flatMap (sentByte false))) ∨
    ((writeTransaction p a data b).1 = .addrNack ∧ (writeTransaction p a data b).2.coarse =
      b.coarse ++ cellFrame true (addrByte a .write) []) ∨
    ((writeTransaction p a data b).1 = .dataNack ∧ ∃ before v after, data = before ++ v :: after ∧
      (writeTransaction p a data b).2.coarse = b.coarse ++
        cellFrame false (addrByte a .write) (before.flatMap (sentByte false) ++ sentByte true v)) := by
  have hframe := fun c es => coarse_transaction p a .write b c (es := es)
  rw [writeTransaction_eq]
  cases hack : (b.envSda.next p.sdaPin).1 with
  | true =>
    rw [hack] at hframe
    rw [if_neg (by simp [hack])]
    exact .inr (.inl ⟨rfl, hframe _ _ (List.append_nil _).symm⟩)
  | false =>
    rw [hack] at hframe
    rw [if_pos (by simp [hack])]
    rcases sendBytes_spec p data (addressSent p a .write b).2 with
      ⟨hok, hdata⟩ | ⟨hnack, before, v, after, hsplit, hdata⟩
    · exact .inl ⟨hok, hframe _ _ hdata⟩
    · rw [List.append_assoc] at hdata
      exact .inr (.inr ⟨hnack, before, v, after, hsplit, hframe _ _ hdata⟩)

theorem exec_endTx_of_status {s : State} {st : Status}
    (h : (writeTransaction s.params s.addr s.queued s.bus).1 = st) :
    exec .endTx s = .next
      (s.clearTx.finish (writeTransaction s.params s.addr s.queued s.bus).2 (.status st)) := by
  subst h
  rfl

theorem performs_endTx {s : State} {es : List Event} (st : Status)
    (h : (writeTransaction s.params s.addr s.queued s.bus).2.coarse = s.bus.coarse ++ es) :
    Performs s (s.clearTx.finish (writeTransaction s.params s.addr s.queued s.bus).2 (.status st)) es := by
  obtain ⟨_, -, hwaits⟩ := (closed_waits s.params).writeTransaction s.addr s.queued s.bus
  exact performs_of_waits hwaits h

/-- Settles O28: the status says where the cells end, and every path ends with `Stop`. -/
theorem endTxSendsQueuedBytes : Obligations.EndTxSendsQueuedBytes := by
  intro s
  have hidle := idle_writeTransaction s.params s.addr s.queued s.bus
  refine ⟨rfl, ?_⟩
  rcases writeTransaction_coarse s.params s.addr s.queued s.bus with
    ⟨hst, hcells⟩ | ⟨hst, hcells⟩ | ⟨hst, before, v, after, hsplit, hcells⟩
  · exact ⟨_, .ok, exec_endTx_of_status hst, rfl, hidle, performs_endTx _ hcells⟩
  · rw [cellFrame, List.append_nil] at hcells
    exact ⟨_, .addrNack, exec_endTx_of_status hst, rfl, hidle, performs_endTx _ hcells⟩
  · rw [cellFrame, ← List.append_assoc (startCell ++ _)] at hcells
    exact ⟨_, .dataNack, exec_endTx_of_status hst, rfl, hidle, before, v, after, hsplit, performs_endTx _ hcells⟩

/-! ### `REQUEST_FROM` (R104) -/

theorem readTransaction_coarse_addrNack {p : Params} {b : Bus} (h : (b.envSda.next p.sdaPin).1 = true)
    (a : Addr) (n : Nat) (rx : Vector Byte 32) :
    (readTransaction p a n rx b).bus.coarse = b.coarse ++ cellFrame true (addrByte a .read) [] := by
  rw [readTransaction_addrNack h, ← h]
  exact coarse_transaction p a .read b _ (List.append_nil _).symm

/-- What the receiving loop leaves when it is through: the cells from `n` on are as they were, and all bytes but
the last were acknowledged (spec/30_encoding.md R55). -/
theorem readTransaction_spec_addrAck {p : Params} {b : Bus} (h : (b.envSda.next p.sdaPin).1 = false)
    (a : Addr) {n : Nat} (hn : n ≤ 32) (rx : Vector Byte 32) :
    (∀ j, n ≤ j → (readTransaction p a n rx b).cells[j]? = rx[j]?) ∧
      (readTransaction p a n rx b).bus.coarse = b.coarse ++ cellFrame false (addrByte a .read)
        ((List.range n).flatMap fun i =>
          receivedByte (decide (i + 1 = n)) ((readTransaction p a n rx b).cells[i]?.getD 0)) := by
  obtain ⟨hstale, hdata⟩ := receivedUpto_spec p n rx (addressSent p a .read b).2 n hn
  rw [List.flatMap_congr fun i hi => by rw [receivedFrames_ninth (List.mem_range.1 hi)]] at hdata
  rw [readTransaction_addrAck h, ← h]
  exact ⟨hstale, coarse_transaction p a .read b _ hdata⟩

/-- The state `REQUEST_FROM` leaves when `n` bytes came. -/
def afterRequest (a : Addr) (count : Byte) (s : State) (n : Fin 33) : State :=
  let r := readTransaction s.params a (clampCount count).val s.rxBuf s.bus
  { s with addr := s.addrAfterRequest a, rxBuf := r.cells, rxLen := n, rxCur := 0 }.finish r.bus (.received n)

section
variable {s : State} (a : Addr) (count : Byte)

theorem exec_requestFrom_addrNack (h : (s.bus.envSda.next s.params.sdaPin).1 = true) :
    exec (.requestFrom a count) s = .next (afterRequest a count s 0) := by
  simp [exec, execRequestFrom, afterRequest, readTransaction_addrNack h]

theorem exec_requestFrom_addrAck (h : (s.bus.envSda.next s.params.sdaPin).1 = false) :
    exec (.requestFrom a count) s = .next (afterRequest a count s (clampCount count)) := by
  simp [exec, execRequestFrom, afterRequest, readTransaction_addrAck h]

theorem performs_afterRequest {es : List Event} (n : Fin 33)
    (h : (readTransaction s.params a (clampCount count).val s.rxBuf s.bus).bus.coarse = s.bus.coarse ++ es) :
    Performs s (afterRequest a count s n) es := by
  obtain ⟨_, -, hwaits⟩ := (closed_waits s.params).readTransaction a (clampCount count).val s.rxBuf s.bus
  exact performs_of_waits hwaits h

end

/-- Settles O31: the loop writes the cells below the length, and every path ends with `Stop`. -/
theorem requestFromFillsBuffer : Obligations.RequestFromFillsBuffer := by
  intro a count s
  refine ⟨packWord_address 0x05 a count, ?_⟩
  have hidle := idle_readTransaction s.params a (clampCount count).val s.rxBuf s.bus
  cases hack : (s.bus.envSda.next s.params.sdaPin).1 with
  | true =>
    have hcells := readTransaction_coarse_addrNack hack a (clampCount count).val s.rxBuf
    rw [cellFrame, List.append_nil] at hcells
    refine ⟨_, exec_requestFrom_addrNack a count hack, rfl, hidle, ?_⟩
    rw [if_pos rfl]
    exact ⟨rfl, congrArg ReadOutcome.cells (readTransaction_addrNack hack a _ _),
      performs_afterRequest a count _ hcells⟩
  | false =>
    obtain ⟨hstale, hcells⟩ := readTransaction_spec_addrAck hack a
      (Nat.le_of_lt_succ (clampCount count).isLt) s.rxBuf
    refine ⟨_, exec_requestFrom_addrAck a count hack, rfl, hidle, ?_⟩
    rw [if_neg Bool.false_ne_true]
    exact ⟨rfl, fun j hj => congrArg (·.getD 0) (hstale j hj), performs_afterRequest a count _ hcells⟩

/-! ### `READ` and `AVAILABLE` (R105, R106) -/

theorem advanceRx_eq (s : State) : s.advanceRx = { s with rxCur := s.advanceRx.rxCur } := by
  unfold State.advanceRx
  split <;> rfl

theorem nextUnread_eq_rxCell {s : State} (h : s.rxCur.val < s.rxLen.val) :
    s.nextUnread = s.rxCell s.rxCur.val := by
  simp [State.nextUnread, State.rxCell, h, show s.rxCur.val < 32 by omega]

theorem nextUnread_empty {s : State} (h : s.rxLen.val ≤ s.rxCur.val) : s.nextUnread = 0 :=
  dif_neg (Nat.not_lt.mpr h)

theorem unread_eq_cons {s : State} (h : s.rxCur.val < s.rxLen.val) :
    s.unread = s.rxCell s.rxCur.val :: s.advanceRx.unread := by
  have hcell : s.rxCur.val < (s.rxBuf.toList.take s.rxLen.val).length := by simp; omega
  rw [State.unread, List.drop_eq_getElem_cons hcell, State.unread, advanceRx_rxCur s h]
  simp [State.rxCell, show s.rxCur.val < 32 by omega]

@[simp] theorem unread_length (s : State) : s.unread.length = s.rxLen.val - s.rxCur.val := by
  simp [State.unread]
  omega

/-- Settles O34: the cell at the cursor is the first unread one. -/
theorem readTakesNextByte : Obligations.ReadTakesNextByte := by
  intro s
  refine ⟨rfl, fun hunread => ?unread, fun hempty => ?empty⟩
  case unread =>
    exact ⟨_, rfl, congrArg (some <| Response.byte ·) (nextUnread_eq_rxCell hunread), advanceRx_rxCur s hunread,
      unread_eq_cons hunread, congrArg (State.respond · _) (advanceRx_eq s)⟩
  case empty =>
    simp [exec, execRead, advanceRx_empty s hempty, nextUnread_empty hempty, State.respond]

/-- Settles O35: the count is the number of cells from the cursor to the length. -/
theorem availableCountsUnread : Obligations.AvailableCountsUnread := by
  intro s
  exact ⟨rfl, s.unreadCount, rfl, rfl, (unread_length s).symm⟩

end Sys2Proof.TransactionProofs

/-! PROOFS. Errors: every step answers a next state, and the status of `END_TX` by the acknowledge bits
(spec/60_exceptions.md). -/

namespace Sys2Proof.ExceptionProofs

open Sys2Proof.Machine Sys2Proof.Laws Sys2Proof.TransactionProofs

/-! ### No step is fatal (R125) -/

/-- Settles O8: an idle step and a refusal leave the pins alone, and an operation keeps the words that wait behind
its own, keeps the parameters and appends to the trace. -/
theorem everyStepTakesOneWord : Obligations.EveryStepTakesOneWord := by
  intro s
  rcases step_cases s with ⟨hnone, h⟩ | ⟨r, rest, hcons, -, h⟩ | ⟨r, rest, i, hcons, -, -, h⟩
  · exact ⟨s, h, by simp [hnone], rfl, List.prefix_refl _⟩
  · exact ⟨_, h, by simp [hcons, refuseWord], rfl, List.prefix_refl _⟩
  · obtain ⟨t, hexec, hincoming, hparams, -, htrace⟩ := exec_next i { s with incoming := rest }
    exact ⟨t, h.trans hexec, by simp [hincoming, hcons], hparams, htrace⟩

/-! ### The first acknowledge bit that is high decides the status (R120, R127, R128) -/

section
variable {p : Params} {b : Bus} (a : Addr) (data : List Byte)

/-- With the address refused no data byte is sent. -/
theorem writeTransaction_addrNack (h : (b.envSda.next p.sdaPin).1 = true) :
    writeTransaction p a data b = (.addrNack, stopCondition p (addressSent p a .write b).2) := by
  rw [writeTransaction_eq, if_neg (by simp [h])]

/-- With the address acknowledged the data bytes decide the status. -/
theorem writeTransaction_addrAck (h : (b.envSda.next p.sdaPin).1 = false) :
    writeTransaction p a data b =
      ((sendBytes p data (addressSent p a .write b).2).1,
        stopCondition p (sendBytes p data (addressSent p a .write b).2).2) := by
  rw [writeTransaction_eq, if_pos (by simp [h])]

end

/-- `END_TX` ends with the status and the data-line answers that its transaction ends with. -/
theorem exec_endTx_of_writeTransaction {s : State} {st : Status} {e : EnvStream}
    (hstatus : (writeTransaction s.params s.addr s.queued s.bus).1 = st)
    (hanswers : (writeTransaction s.params s.addr s.queued s.bus).2.envSda = e) :
    ∃ t, exec .endTx s = .next t ∧ t.response = some (.status st) ∧ t.bus.envSda = e :=
  ⟨_, exec_endTx_of_status hstatus, rfl, hanswers⟩

/-- A high first answer is all that `END_TX` takes. -/
theorem exec_endTx_addrNack {s : State} {rest : List Level} {n : Nat} (h : s.bus.envSda = ⟨true :: rest, n⟩) :
    ∃ t, exec .endTx s = .next t ∧ t.response = some (.status .addrNack) ∧ t.bus.envSda = ⟨rest, n⟩ := by
  have hnack := writeTransaction_addrNack (p := s.params) s.addr s.queued (by rw [h]; rfl)
  apply exec_endTx_of_writeTransaction <;> simp [hnack, h, next_cons]

/-- After a low first answer, status and answers are those of the data bytes, begun at the answers that follow. -/
theorem exec_endTx_addrAck {s : State} {tail : List Level} {n : Nat} {st : Status} {e : EnvStream}
    (h : s.bus.envSda = ⟨false :: tail, n⟩)
    (hdata : ∀ c : Bus, c.envSda = ⟨tail, n⟩ →
      (sendBytes s.params s.queued c).1 = st ∧ (sendBytes s.params s.queued c).2.envSda = e) :
    ∃ t, exec .endTx s = .next t ∧ t.response = some (.status st) ∧ t.bus.envSda = e := by
  have hack := writeTransaction_addrAck (p := s.params) s.addr s.queued (by rw [h]; rfl)
  obtain ⟨hstatus, hanswers⟩ := hdata (addressSent s.params s.addr .write s.bus).2 (by simp [h, next_cons])
  apply exec_endTx_of_writeTransaction <;> simp [hack, hstatus, hanswers]

/-- Settles O29: the address byte takes the first answer, and each data byte sent takes the next one; `Stop` takes
none. -/
theorem endTxStatusFollowsAcks : Obligations.EndTxStatusFollowsAcks := by
  intro s rest n
  refine ⟨exec_endTx_addrNack, fun j hj h => ?dataNack, fun h => ?ok⟩
  case dataNack =>
    exact exec_endTx_addrAck h fun c hc =>
      (sendBytes_acks s.params s.queued c rest n).1 j (by rwa [queued_length]) hc
  case ok =>
    exact exec_endTx_addrAck h fun c hc =>
      (sendBytes_acks s.params s.queued c rest n).2 (by rwa [queued_length])

end Sys2Proof.ExceptionProofs

/-! PROOFS. Time: what an operation costs in half-bit delays, clock releases and polls
(spec/70_reset_and_hazards.md R164, R165). -/

namespace Sys2Proof.HazardProofs

open Sys2Proof.Machine Sys2Proof.Laws Sys2Proof.TransactionProofs

/-! ### How often an operation polls the clock line (R165) -/

/-- From `b` to `c` there were at most 299 clock releases, and polls for no more than so many. -/
def PollsBounded (p : Params) (b c : Bus) : Prop :=
  ∃ es, Added b c es ∧ es.count .poll ≤ 299 * p.stretchMaxPolls ∧ es.count (.floated .scl) ≤ 299

theorem pollsBounded_of_releases {p : Params} {b c : Bus} {n : Nat} (hn : n ≤ 299)
    (h : ∃ es, Added b c es ∧ es.count .poll ≤ n * p.stretchMaxPolls ∧ es.count (.floated .scl) = n) :
    PollsBounded p b c := by
  obtain ⟨es, hadded, hpolls, hreleases⟩ := h
  exact ⟨es, hadded, hpolls.trans (Nat.mul_le_mul_right _ hn), hreleases.trans_le hn⟩

/-- With a bound of at least 1 a few events stay within the limits, whatever they are. -/
theorem pollsBounded_of_length {p : Params} {b c : Bus} {es : List Event} (hpos : 0 < p.stretchMaxPolls)
    (hadded : Added b c es) (hlength : es.length ≤ 299) : PollsBounded p b c :=
  ⟨es, hadded, (List.count_le_length.trans hlength).trans (Nat.le_mul_of_pos_right _ hpos),
    List.count_le_length.trans hlength⟩

/-- The worst cases are the transactions: at most 33 bytes of nine clock releases each, START and STOP. -/
theorem exec_pollsBounded {i : Instr} {s t : State} (hpos : 0 < s.params.stretchMaxPolls)
    (h : exec i s = .next t) : PollsBounded s.params s.bus t.bus := by
  have hc := closed_polls s.params
  have hfew {c : Bus} {es : List Event} := pollsBounded_of_length (b := s.bus) (c := c) (es := es) hpos
  cases i <;> obtain rfl := Host.Outcome.next.inj h
  case beginBus => exact hfew (es := [.floated .sda, .floated .scl, .stabilize]) (by simp [Added]) (by simp)
  case beginTx => exact hfew (Added.refl _) (by simp)
  case write => exact hfew (es := []) (by simp [Added]) (by simp)
  case endTx =>
    obtain ⟨k, hk, hreleases⟩ := hc.writeTransaction s.addr s.queued s.bus
    rw [queued_length] at hk
    exact pollsBounded_of_releases (by omega) hreleases
  case requestFrom a count =>
    obtain ⟨k, hk, hreleases⟩ := hc.readTransaction a (clampCount count).val s.rxBuf s.bus
    exact pollsBounded_of_releases (by omega) hreleases
  case read => exact hfew (es := []) (by simp [Added]) (by simp)
  case available => exact hfew (Added.refl _) (by simp)
  case driveLow l => exact hfew (driveLow_events _ l _) (by simp)
  case release l => exact hfew (release_events l _) (by simp)
  case sample l => exact hfew (sample_events _ l _) (by simp)
  case halfDelay => exact hfew (halfDelay_events _) (by simp)
  case pollDelay => exact hfew (pollDelay_events _) (by simp)
  case stabilizeWait => exact hfew (stabilizeWait_events _) (by simp)
  case sclReleaseWait => exact pollsBounded_of_releases (by decide) (hc.sclReleaseWait _)
  case start => exact pollsBounded_of_releases (by decide) (hc.startCondition _)
  case stop => exact pollsBounded_of_releases (by decide) (hc.stopCondition _)
  case writeBit v => exact pollsBounded_of_releases (by decide) (hc.writeBit v _)
  case readBit => exact pollsBounded_of_releases (by decide) (hc.readBit _)
  case writeByte v =>
    exact pollsBounded_of_releases (by decide) (hc.writeByte _ v { s.bus with draws := s.bus.draws + 1 })
  case readByte ack => exact pollsBounded_of_releases (by decide) (hc.readByte ack _)

/-- The bound of R165 holds at exactly the states whose stretch bound is in the range of spec/00_scope.md R4:
`POLL_DELAY` polls once, whatever the stretch bound is. -/
theorem polls_bounded_iff (s : State) :
    (∀ i, ∃ t, exec i s = .next t ∧ (newEvents s t).count .poll ≤ 299 * s.params.stretchMaxPolls ∧
      (newEvents s t).count (.floated .scl) ≤ 299) ↔ 0 < s.params.stretchMaxPolls := by
  constructor
  · intro h
    obtain ⟨t, hexec, hpolls, -⟩ := h .pollDelay
    obtain rfl := Host.Outcome.next.inj hexec
    have hone : newEvents s (s.finish (pollDelay s.bus) .noValue) = [.poll] :=
      Added.drop (pollDelay_events s.bus)
    rw [hone, List.count_singleton_self] at hpolls
    omega
  · intro hpos i
    obtain ⟨t, hexec, -⟩ := exec_next i s
    obtain ⟨es, hadded, hbounds⟩ := exec_pollsBounded hpos hexec
    exact ⟨t, hexec, by rwa [newEvents, hadded.drop]⟩

/-- Refutes O43: the statement takes every state, also one whose stretch bound is 0, and there `POLL_DELAY` polls
once where no poll is allowed. -/
theorem not_pollsPerCommandBounded : ¬ Obligations.PollsPerCommandBounded := by
  intro h
  let s : State := State.construct ⟨0, 4, 5, .low, false⟩ 0
  have hpos : 0 < s.params.stretchMaxPolls := (polls_bounded_iff s).1 fun i => h i s
  exact Nat.lt_irrefl 0 hpos

/-! ### What pin events cost (R164) -/

/-- The cost of pin events: their half-bit delays, their clock releases, and their nominal time beside the polls. -/
structure Costs (es : List Event) (halves releases micros : Nat) : Prop where
  halves : es.count .half = halves
  releases : es.count (.floated .scl) = releases
  time : nominalTime es = micros + nominalPoll * es.count .poll

theorem nominalTime_append (es fs : List Event) : nominalTime (es ++ fs) = nominalTime es + nominalTime fs := by
  simp [nominalTime]

theorem Costs.append {es fs : List Event} {h₁ h₂ r₁ r₂ m₁ m₂ : Nat} (h : Costs es h₁ r₁ m₁)
    (g : Costs fs h₂ r₂ m₂) : Costs (es ++ fs) (h₁ + h₂) (r₁ + r₂) (m₁ + m₂) where
  halves := by rw [List.count_append, h.halves, g.halves]
  releases := by rw [List.count_append, h.releases, g.releases]
  time := by
    rw [nominalTime_append, List.count_append, h.time, g.time, Nat.mul_add]
    omega

theorem costs_nil : Costs [] 0 0 0 := ⟨rfl, rfl, rfl⟩

theorem costs_flatMap {α : Type} {f : α → List Event} {h r m : Nat} (hf : ∀ x, Costs (f x) h r m) (l : List α) :
    Costs (l.flatMap f) (h * l.length) (r * l.length) (m * l.length) := by
  induction l with
  | nil => exact costs_nil
  | cons x l ih =>
    have hcons := (hf x).append ih
    simpa only [List.flatMap_cons, List.length_cons, Nat.mul_succ, Nat.add_comm] using hcons

/-- The events left out of the coarse trace take no time, but for the polls. -/
theorem nominalTime_eq_coarse (es : List Event) :
    nominalTime es = nominalTime (es.filter Event.isCoarse) + nominalPoll * es.count .poll := by
  induction es with
  | nil => rfl
  | cons e es ih =>
    rw [← List.singleton_append, nominalTime_append, List.filter_append, nominalTime_append, List.count_append,
      Nat.mul_add, ih]
    have hone : nominalTime [e] = nominalTime ([e].filter Event.isCoarse) + nominalPoll * [e].count .poll := by
      rcases e with l | l | l | ⟨_ | _, v⟩ | _ | _ | _ <;> rfl
    omega

/-- The polls do not count, so the cost of what an operation did can be read from the trace without them. -/
theorem Costs.of_coarse {es : List Event} {h r m : Nat} (hcost : Costs (es.filter Event.isCoarse) h r m) :
    Costs es h r m where
  halves := by rw [← hcost.halves, List.count_filter rfl]
  releases := by rw [← hcost.releases, List.count_filter rfl]
  time := by
    have hnone : (es.filter Event.isCoarse).count .poll = 0 := List.count_eq_zero.2 (by simp [Event.isCoarse])
    rw [nominalTime_eq_coarse, hcost.time, hnone, Nat.mul_zero, Nat.add_zero]

/-- An operation costs what the cells it performs cost. -/
theorem costs_newEvents {i : Instr} {s t : State} {es : List Event} {h r m : Nat} (hexec : exec i s = .next t)
    (hcoarse : t.bus.coarse = s.bus.coarse ++ es) (hcost : Costs es h r m) : Costs (newEvents s t) h r m := by
  obtain ⟨u, hu, -, -, -, htrace⟩ := exec_next i s
  obtain rfl := Host.Outcome.next.inj (hu.symm.trans hexec)
  obtain ⟨fs, hfs⟩ := htrace.map Entry.event
  have hadded : Added s.bus u.bus fs := hfs.symm
  rw [Bus.coarse, hadded, List.filter_append] at hcoarse
  rw [newEvents, hadded.drop]
  exact Costs.of_coarse (List.append_cancel_left hcoarse ▸ hcost)

/-! ### The cost of the cells -/

theorem costs_startCell : Costs startCell 4 1 20 := ⟨rfl, rfl, rfl⟩

theorem costs_stopCell : Costs stopCell 3 1 15 := ⟨rfl, rfl, rfl⟩

theorem costs_writeCell (v : Level) : Costs (writeCell v) 3 1 15 := by
  cases v <;> exact ⟨rfl, rfl, rfl⟩

theorem costs_readCell (v : Level) : Costs (readCell v) 3 1 15 := ⟨rfl, rfl, rfl⟩

theorem costs_sentByte (ninth : Level) (v : Byte) : Costs (sentByte ninth v) 27 9 135 :=
  (costs_flatMap costs_writeCell (msbFirst v)).append (costs_readCell ninth)

theorem costs_receivedByte (ninth : Level) (v : Byte) : Costs (receivedByte ninth v) 27 9 135 :=
  (costs_flatMap costs_readCell (msbFirst v)).append (costs_writeCell ninth)

/-- A transaction with `k` bytes behind its address byte. -/
def CostsFrame (es : List Event) (k : Nat) : Prop :=
  Costs es (7 + 27 * (k + 1)) (2 + 9 * (k + 1)) (35 + 135 * (k + 1))

theorem costsFrame_cellFrame (ninth : Level) (address : Byte) {body : List Event} {k : Nat}
    (hbody : Costs body (27 * k) (9 * k) (135 * k)) : CostsFrame (cellFrame ninth address body) k := by
  obtain ⟨hhalves, hreleases, htime⟩ :=
    ((costs_startCell.append (costs_sentByte ninth address)).append hbody).append costs_stopCell
  rw [CostsFrame, cellFrame]
  exact ⟨hhalves.trans (by omega), hreleases.trans (by omega), htime.trans (by omega)⟩

/-! ### The cost of the transactions -/

/-- `END_TX` by the status; a data byte that is refused ends the frame early and has no row in R164. -/
theorem exec_endTx_costs (s : State) : ∃ t st, exec .endTx s = .next t ∧ t.response = some (.status st) ∧
    (st = .ok → CostsFrame (newEvents s t) s.txLen.val) ∧
    (st = .addrNack → CostsFrame (newEvents s t) 0) := by
  rcases writeTransaction_coarse s.params s.addr s.queued s.bus with
    ⟨hst, hcells⟩ | ⟨hst, hcells⟩ | ⟨hst, -⟩
  · have hexec := exec_endTx_of_status hst
    have hdata := costs_flatMap (costs_sentByte false) s.queued
    rw [queued_length] at hdata
    exact ⟨_, .ok, hexec, rfl,
      fun _ => costs_newEvents hexec hcells (costsFrame_cellFrame false _ hdata), nofun⟩
  · have hexec := exec_endTx_of_status hst
    exact ⟨_, .addrNack, hexec, rfl, nofun,
      fun _ => costs_newEvents hexec hcells (costsFrame_cellFrame true _ costs_nil)⟩
  · exact ⟨_, .dataNack, exec_endTx_of_status hst, rfl, nofun, nofun⟩

/-- `REQUEST_FROM` receives as many bytes as `RXLEN` says, none when the address is refused. -/
theorem exec_requestFrom_costs (a : Addr) (count : Byte) (s : State) :
    ∃ t, exec (.requestFrom a count) s = .next t ∧ CostsFrame (newEvents s t) t.rxLen.val := by
  cases hack : (s.bus.envSda.next s.params.sdaPin).1 with
  | true =>
    have hexec := exec_requestFrom_addrNack a count hack
    have hcells := readTransaction_coarse_addrNack hack a (clampCount count).val s.rxBuf
    exact ⟨_, hexec, costs_newEvents hexec hcells (costsFrame_cellFrame true _ costs_nil)⟩
  | false =>
    have hexec := exec_requestFrom_addrAck a count hack
    obtain ⟨-, hcells⟩ := readTransaction_spec_addrAck hack a (Nat.le_of_lt_succ (clampCount count).isLt) s.rxBuf
    have hdata := costs_flatMap (fun i => costs_receivedByte (decide (i + 1 = (clampCount count).val))
      ((readTransaction s.params a (clampCount count).val s.rxBuf s.bus).cells[i]?.getD 0))
      (List.range (clampCount count).val)
    rw [List.length_range] at hdata
    exact ⟨_, hexec, costs_newEvents hexec hcells (costsFrame_cellFrame false _ hdata)⟩

/-- Settles O44: both transactions perform the frame of their bytes. -/
theorem transactionDelayCounts : Obligations.TransactionDelayCounts := by
  constructor
  · intro s
    obtain ⟨t, st, hexec, hresponse, hok, hnack⟩ := exec_endTx_costs s
    exact ⟨t, st, hexec, hresponse, fun h => ⟨(hok h).halves, (hok h).releases⟩,
      fun h => ⟨(hnack h).halves, (hnack h).releases⟩⟩
  · intro a count s
    obtain ⟨t, hexec, hcost⟩ := exec_requestFrom_costs a count s
    exact ⟨t, hexec, hcost.halves, hcost.releases⟩

/-! ### The nominal times -/

/-- The time of an operation is the time of the cells it performs, and that of its polls. -/
theorem exec_nominalTime {i : Instr} {s t : State} {es : List Event} {h r m : Nat} (hexec : exec i s = .next t)
    (hcoarse : t.bus.coarse = s.bus.coarse ++ es) (hcost : Costs es h r m) :
    ∃ t, exec i s = .next t ∧ nominalTime (newEvents s t) = m + nominalPoll * (newEvents s t).count .poll :=
  ⟨t, hexec, (costs_newEvents hexec hcoarse hcost).time⟩

/-- Settles O45: the time of the cells an operation performs. -/
theorem nominalDurations : Obligations.NominalDurations := by
  refine ⟨?single, ?endTx, ?requestFrom⟩
  case single =>
    rintro i d s (⟨rfl, rfl⟩ | ⟨rfl, rfl⟩ | ⟨⟨v, rfl⟩, rfl⟩ | ⟨rfl, rfl⟩ | ⟨⟨v, rfl⟩, rfl⟩ | ⟨⟨ack, rfl⟩, rfl⟩ |
      ⟨rfl, rfl⟩ | ⟨⟨a, rfl⟩, rfl⟩ | ⟨⟨b, rfl⟩, rfl⟩ | ⟨rfl, rfl⟩ | ⟨rfl, rfl⟩)
    · exact exec_nominalTime rfl (startCondition_coarse _ _) costs_startCell
    · exact exec_nominalTime rfl (stopCondition_coarse _ _) costs_stopCell
    · exact exec_nominalTime rfl (writeBit_coarse _ v _) (costs_writeCell v)
    · exact exec_nominalTime rfl (readBit_coarse _ _) (costs_readCell _)
    · exact exec_nominalTime rfl (writeByte_coarse _ _ v _) (costs_sentByte _ v)
    · exact exec_nominalTime rfl (readByte_coarse _ ack _) (costs_receivedByte _ _)
    · exact exec_nominalTime (es := [.floated .sda, .floated .scl, .stabilize]) rfl (by simp) ⟨rfl, rfl, rfl⟩
    · exact exec_nominalTime rfl (List.append_nil _).symm costs_nil
    · exact exec_nominalTime rfl (by simp) costs_nil
    · exact exec_nominalTime rfl (by simp) costs_nil
    · exact exec_nominalTime rfl (List.append_nil _).symm costs_nil
  case endTx =>
    intro s
    obtain ⟨t, st, hexec, hresponse, hok, hnack⟩ := exec_endTx_costs s
    exact ⟨t, st, hexec, hresponse, fun h => (hok h).time, fun h => (hnack h).time⟩
  case requestFrom =>
    intro a count s
    obtain ⟨t, hexec, hcost⟩ := exec_requestFrom_costs a count s
    exact ⟨t, hexec, hcost.time⟩

end Sys2Proof.HazardProofs

/-! PROOFS. Noninterference: a micro-operation depends on nothing but the line side and the parameters, and
changes nothing but the line side (spec/40_line_primitives.md and spec/41_protocol_primitives.md, opening
paragraphs). -/

namespace Sys2Proof.NoninterferenceProofs

open Sys2Proof.Machine Sys2Proof.StateProofs

theorem onlyBus_finish (s : State) (b : Bus) (r : Response) : OnlyBus s (s.finish b r) := rfl

/-- An operation on the line side is a function of the line side and the parameters, so states that agree
there get the same line side and response. -/
theorem lineOnly_noninterference {i : Instr} (hline : LineOnly i) {s t : State} (hbus : t.bus = s.bus)
    (hparams : t.params = s.params) :
    ∃ s' t', exec i s = .next s' ∧ exec i t = .next t' ∧ OnlyBus s s' ∧ OnlyBus t t' ∧
      t'.bus = s'.bus ∧ t'.response = s'.response := by
  obtain ⟨f, hf⟩ := hline
  have ht : exec i t = .next (t.finish (f s.params s.bus).1 (f s.params s.bus).2) := by
    rw [hf t, hbus, hparams]
  exact ⟨_, _, hf s, ht, onlyBus_finish .., onlyBus_finish .., rfl, rfl⟩

/-- Settles O24: every micro-operation is an operation on the line side. -/
theorem microOperationsUseOnlyBus : Obligations.MicroOperationsUseOnlyBus :=
  fun _ _ _ hmicro hbus hparams => lineOnly_noninterference (lineOnly_microOperation hmicro) hbus hparams

end Sys2Proof.NoninterferenceProofs
